-- ==== Sys2Proof/Word.lean ====
section
/-! DEFINITION. The word types of the core (00_scope.md R7, R8): bit 0 is the least significant bit. Every value is
unsigned (R9). -/

namespace Sys2Proof

/-- An 8-bit value: a general register, a timer, a memory byte, an immediate kk (R31, R38, R39, R71, R104). -/
abbrev Byte := BitVec 8

/-- A 16-bit value: I, PC, a stack word, an opcode (R34, R35, R37, R100). -/
abbrev Word := BitVec 16

/-- A 4-bit field of the opcode (R12, R101). -/
abbrev Nibble := BitVec 4

/-- A register selector x or y: 4 bits, so every value names one of V[0]..V[15] (R31, R104). -/
abbrev Reg := BitVec 4

/-- A 12-bit address field nnn (R101, R104). -/
abbrev Addr12 := BitVec 12

/-- The 16-bit key mask: bit k is 1 iff logical key k is down (R43). -/
abbrev KeyMask := BitVec 16

end Sys2Proof
end

