-- ==== Sys2Proof/Config.lean ====
section
/-! DEFINITION. What an implementation fixes (00_scope.md R7), and the free values: the inputs of a step that nothing
has lined up. -/

namespace Sys2Proof

/-- The parameters a step depends on (R7). A machine's configuration is a field of its State that no step writes, so
that a statement over all states is a statement over all parameters (DESIGN CHOICE, log entry 2; safe). -/
structure Config where
  /-- MEM_SIZE: the number of bytes of main memory (R7, R71). -/
  memSize : Nat
  /-- WAIT_TIMER_TICK: whether a blocked Fx0A step keeps its timer tick (R7, R221). -/
  waitTimerTick : Bool
  deriving DecidableEq, Repr

/-- The default parameters of R7: MEM_SIZE = 4096, WAIT_TIMER_TICK = true. -/
def Config.default : Config := { memSize := 4096, waitTimerTick := true }

/-- FREE VALUE (log entry 4; safe): the KEY input of step number n where the driver has lined up none (R43). It has no
body, so a statement that meets it holds for every key mask. -/
opaque Config.freeKey : Nat → KeyMask

/-- FREE VALUE (log entry 4; safe): the RAND input of step number n where none is lined up (R44, R163, U8, D24). It has
no body, so a statement that meets it holds for every byte. -/
opaque Config.freeRand : Nat → Byte

end Sys2Proof
end

