-- ==== Sys2Proof/Syntax.lean ====
section
/-! DEFINITION. The 34 instruction forms, one constructor per row of spec/opcode_table.json, in the table's order
(30_encoding.md R103, R105, R108). A word that is none of them is no Instr: see Decoded.invalid in Decode.lean
(R118). -/

namespace Sys2Proof

/-- The operand types are the widths of the opcode's fields (R101, R104): x and y are 4 bits, n is 4 bits, kk is
8 bits, nnn is 12 bits. -/
inductive Instr where
  /-- 00E0, CLS (R200). -/
  | cls
  /-- 00EE, RET (R131). -/
  | ret
  /-- 1nnn, JP nnn (R132). -/
  | jp (nnn : Addr12)
  /-- 2nnn, CALL nnn (R133). -/
  | call (nnn : Addr12)
  /-- 3xkk, SE Vx, kk (R141). -/
  | seImm (x : Reg) (kk : Byte)
  /-- 4xkk, SNE Vx, kk (R142). -/
  | sneImm (x : Reg) (kk : Byte)
  /-- 5xy0, SE Vx, Vy (R143). -/
  | seReg (x y : Reg)
  /-- 6xkk, LD Vx, kk (R152). -/
  | ldImm (x : Reg) (kk : Byte)
  /-- 7xkk, ADD Vx, kk (R153). -/
  | addImm (x : Reg) (kk : Byte)
  /-- 8xy0, LD Vx, Vy (R154). -/
  | ldReg (x y : Reg)
  /-- 8xy1, OR Vx, Vy (R155). -/
  | orReg (x y : Reg)
  /-- 8xy2, AND Vx, Vy (R156). -/
  | andReg (x y : Reg)
  /-- 8xy3, XOR Vx, Vy (R157). -/
  | xorReg (x y : Reg)
  /-- 8xy4, ADD Vx, Vy (R158). -/
  | addReg (x y : Reg)
  /-- 8xy5, SUB Vx, Vy (R159). -/
  | subReg (x y : Reg)
  /-- 8xy6, SHR Vx (R160). The y field is decoded and has no effect (R103). -/
  | shr (x y : Reg)
  /-- 8xy7, SUBN Vx, Vy (R161). -/
  | subnReg (x y : Reg)
  /-- 8xyE, SHL Vx (R162). The y field is decoded and has no effect (R103). -/
  | shl (x y : Reg)
  /-- 9xy0, SNE Vx, Vy (R144). -/
  | sneReg (x y : Reg)
  /-- Annn, LD I, nnn (R180). -/
  | ldI (nnn : Addr12)
  /-- Bnnn, JP V0, nnn (R134). -/
  | jpV0 (nnn : Addr12)
  /-- Cxkk, RND Vx, kk (R163). -/
  | rnd (x : Reg) (kk : Byte)
  /-- Dxyn, DRW Vx, Vy, n (R201). -/
  | drw (x y : Reg) (n : Nibble)
  /-- Ex9E, SKP Vx (R146). -/
  | skp (x : Reg)
  /-- ExA1, SKNP Vx (R147). -/
  | sknp (x : Reg)
  /-- Fx07, LD Vx, DT (R220). -/
  | ldVxDt (x : Reg)
  /-- Fx0A, LD Vx, K (R221). -/
  | ldVxK (x : Reg)
  /-- Fx15, LD DT, Vx (R222). -/
  | ldDtVx (x : Reg)
  /-- Fx18, LD ST, Vx (R223). -/
  | ldStVx (x : Reg)
  /-- Fx1E, ADD I, Vx (R181). -/
  | addIVx (x : Reg)
  /-- Fx29, LD F, Vx (R182). -/
  | ldFVx (x : Reg)
  /-- Fx33, LD B, Vx (R183). -/
  | ldBVx (x : Reg)
  /-- Fx55, LD [I], Vx (R184). -/
  | ldIVx (x : Reg)
  /-- Fx65, LD Vx, [I] (R185). -/
  | ldVxI (x : Reg)
  deriving DecidableEq, Repr

end Sys2Proof
end

