-- ==== Sys2Proof/WellFormed.lean ====
section
/-! DEFINITION. The checks on data that comes from outside: the configuration, the font and the ROM image. An Instr needs
no check: each operand's type is exactly the width of its field (Syntax.lean), and every value of every field is a valid
operand (30_encoding.md R101, R103, R104), so no ill-formed instruction can be written (log entry 10). -/

namespace Sys2Proof

/-- The bounds of MEM_SIZE: 0x202 ≤ MEM_SIZE ≤ 65536 (00_scope.md R7, D18). WAIT_TIMER_TICK has no bound. -/
abbrev Config.WellFormed (c : Config) : Prop := 0x202 ≤ c.memSize ∧ c.memSize ≤ 65536

/-- A FONT has 16 sprites of 5 bytes (00_scope.md R7, 70_reset_and_hazards.md R284). -/
abbrev FontWellFormed (font : List Byte) : Prop := font.length = 80

/-- A ROM image that fits in main memory from 0x200 on (20_memory.md R81). What a loader does with a larger one the spec
leaves open (70_reset_and_hazards.md R283, D28). -/
abbrev RomFits (c : Config) (rom : List Byte) : Prop := 0x200 + rom.length ≤ c.memSize

end Sys2Proof
end

