-- ==== Sys2Proof/Decode.lean ====
section
/-! DEFINITION. The decoder (30_encoding.md R101 to R107, R117, R118), the encoder written from the same formats, and
the opcode table as masks and matches (R102, R105). -/

namespace Sys2Proof

/-- IR[15:12], the major opcode (R101). -/
def opField (w : Word) : Nibble := w.extractLsb' 12 4

/-- IR[11:8], the register selector x (R101). -/
def xField (w : Word) : Reg := w.extractLsb' 8 4

/-- IR[7:4], the register selector y (R101). -/
def yField (w : Word) : Reg := w.extractLsb' 4 4

/-- IR[3:0], the sub-opcode nibble or the row count n (R101). -/
def nField (w : Word) : Nibble := w.extractLsb' 0 4

/-- IR[7:0], the immediate kk (R101). -/
def kkField (w : Word) : Byte := w.extractLsb' 0 8

/-- IR[11:0], the address nnn (R101). -/
def nnnField (w : Word) : Addr12 := w.extractLsb' 0 12

/-- What a word decodes to: one of the 34 forms, or the final Invalid variant that carries the raw bits (R118). -/
inductive Decoded where
  /-- The word matches the row of this instruction form. -/
  | instr (i : Instr)
  /-- The word matches no row: running it raises InvalidInstruction (R107, R117). -/
  | invalid (ir : Word)
  deriving DecidableEq, Repr

/-- The rows of major opcode 0x8, selected by n (R105). -/
def decodeAlu (w : Word) : Decoded :=
  match nField w with
  | 0x0#4 => .instr (.ldReg (xField w) (yField w))
  | 0x1#4 => .instr (.orReg (xField w) (yField w))
  | 0x2#4 => .instr (.andReg (xField w) (yField w))
  | 0x3#4 => .instr (.xorReg (xField w) (yField w))
  | 0x4#4 => .instr (.addReg (xField w) (yField w))
  | 0x5#4 => .instr (.subReg (xField w) (yField w))
  | 0x6#4 => .instr (.shr (xField w) (yField w))
  | 0x7#4 => .instr (.subnReg (xField w) (yField w))
  | 0xE#4 => .instr (.shl (xField w) (yField w))
  | _ => .invalid w

/-- The rows of major opcode 0xE, selected by kk (R105). -/
def decodeKey (w : Word) : Decoded :=
  match kkField w with
  | 0x9E#8 => .instr (.skp (xField w))
  | 0xA1#8 => .instr (.sknp (xField w))
  | _ => .invalid w

/-- The rows of major opcode 0xF, selected by kk (R105). -/
def decodeMisc (w : Word) : Decoded :=
  match kkField w with
  | 0x07#8 => .instr (.ldVxDt (xField w))
  | 0x0A#8 => .instr (.ldVxK (xField w))
  | 0x15#8 => .instr (.ldDtVx (xField w))
  | 0x18#8 => .instr (.ldStVx (xField w))
  | 0x1E#8 => .instr (.addIVx (xField w))
  | 0x29#8 => .instr (.ldFVx (xField w))
  | 0x33#8 => .instr (.ldBVx (xField w))
  | 0x55#8 => .instr (.ldIVx (xField w))
  | 0x65#8 => .instr (.ldVxI (xField w))
  | _ => .invalid w

/-- The decoder: total on 16-bit words, by the opcode map of R105. The sixteen values of the major opcode are all listed,
so the last line is reached by no word. -/
def decode (w : Word) : Decoded :=
  match opField w with
  | 0x0#4 => if w = 0x00E0#16 then .instr .cls else if w = 0x00EE#16 then .instr .ret else .invalid w
  | 0x1#4 => .instr (.jp (nnnField w))
  | 0x2#4 => .instr (.call (nnnField w))
  | 0x3#4 => .instr (.seImm (xField w) (kkField w))
  | 0x4#4 => .instr (.sneImm (xField w) (kkField w))
  | 0x5#4 => if nField w = 0x0#4 then .instr (.seReg (xField w) (yField w)) else .invalid w
  | 0x6#4 => .instr (.ldImm (xField w) (kkField w))
  | 0x7#4 => .instr (.addImm (xField w) (kkField w))
  | 0x8#4 => decodeAlu w
  | 0x9#4 => if nField w = 0x0#4 then .instr (.sneReg (xField w) (yField w)) else .invalid w
  | 0xA#4 => .instr (.ldI (nnnField w))
  | 0xB#4 => .instr (.jpV0 (nnnField w))
  | 0xC#4 => .instr (.rnd (xField w) (kkField w))
  | 0xD#4 => .instr (.drw (xField w) (yField w) (nField w))
  | 0xE#4 => decodeKey w
  | 0xF#4 => decodeMisc w
  | _ => .invalid w

/-- Two fetched bytes as one opcode, most significant byte first: b0 = IR[15:8], b1 = IR[7:0] (20_memory.md R75, R113). -/
def wordOfBytes (b0 b1 : Byte) : Word := b0 ++ b1

/-- The decoder on the two bytes of an instruction as they stand in memory (R100, R113). -/
def decodeBytes (b0 b1 : Byte) : Decoded := decode (wordOfBytes b0 b1)

/-- The high byte of a word, which lies at the lower address (20_memory.md R75). -/
def highByte (w : Word) : Byte := w.extractLsb' 8 8

/-- The low byte of a word, which lies at the higher address (20_memory.md R75). -/
def lowByte (w : Word) : Byte := w.extractLsb' 0 8

/-- The word of an instruction, by the formats of R103: the first part stands in the highest bits. -/
def encode : Instr → Word
  | .cls => 0x00E0#16
  | .ret => 0x00EE#16
  | .jp nnn => 0x1#4 ++ nnn
  | .call nnn => 0x2#4 ++ nnn
  | .seImm x kk => 0x3#4 ++ x ++ kk
  | .sneImm x kk => 0x4#4 ++ x ++ kk
  | .seReg x y => 0x5#4 ++ x ++ y ++ 0x0#4
  | .ldImm x kk => 0x6#4 ++ x ++ kk
  | .addImm x kk => 0x7#4 ++ x ++ kk
  | .ldReg x y => 0x8#4 ++ x ++ y ++ 0x0#4
  | .orReg x y => 0x8#4 ++ x ++ y ++ 0x1#4
  | .andReg x y => 0x8#4 ++ x ++ y ++ 0x2#4
  | .xorReg x y => 0x8#4 ++ x ++ y ++ 0x3#4
  | .addReg x y => 0x8#4 ++ x ++ y ++ 0x4#4
  | .subReg x y => 0x8#4 ++ x ++ y ++ 0x5#4
  | .shr x y => 0x8#4 ++ x ++ y ++ 0x6#4
  | .subnReg x y => 0x8#4 ++ x ++ y ++ 0x7#4
  | .shl x y => 0x8#4 ++ x ++ y ++ 0xE#4
  | .sneReg x y => 0x9#4 ++ x ++ y ++ 0x0#4
  | .ldI nnn => 0xA#4 ++ nnn
  | .jpV0 nnn => 0xB#4 ++ nnn
  | .rnd x kk => 0xC#4 ++ x ++ kk
  | .drw x y n => 0xD#4 ++ x ++ y ++ n
  | .skp x => 0xE#4 ++ x ++ 0x9E#8
  | .sknp x => 0xE#4 ++ x ++ 0xA1#8
  | .ldVxDt x => 0xF#4 ++ x ++ 0x07#8
  | .ldVxK x => 0xF#4 ++ x ++ 0x0A#8
  | .ldDtVx x => 0xF#4 ++ x ++ 0x15#8
  | .ldStVx x => 0xF#4 ++ x ++ 0x18#8
  | .addIVx x => 0xF#4 ++ x ++ 0x1E#8
  | .ldFVx x => 0xF#4 ++ x ++ 0x29#8
  | .ldBVx x => 0xF#4 ++ x ++ 0x33#8
  | .ldIVx x => 0xF#4 ++ x ++ 0x55#8
  | .ldVxI x => 0xF#4 ++ x ++ 0x65#8

/-- One row of spec/opcode_table.json: its mnemonic, mask and match (R102). -/
structure Row where
  mnemonic : String
  mask : Word
  pattern : Word
  deriving DecidableEq, Repr

/-- A word matches a row when (IR & mask) = match (R102). -/
def Row.fits (r : Row) (w : Word) : Bool := (w &&& r.mask) == r.pattern

/-- The row of spec/opcode_table.json an instruction stands for (R105, R108). -/
def Instr.row : Instr → Row
  | .cls => { mnemonic := "CLS", mask := 0xFFFF, pattern := 0x00E0 }
  | .ret => { mnemonic := "RET", mask := 0xFFFF, pattern := 0x00EE }
  | .jp _ => { mnemonic := "JP", mask := 0xF000, pattern := 0x1000 }
  | .call _ => { mnemonic := "CALL", mask := 0xF000, pattern := 0x2000 }
  | .seImm _ _ => { mnemonic := "SE_IMM", mask := 0xF000, pattern := 0x3000 }
  | .sneImm _ _ => { mnemonic := "SNE_IMM", mask := 0xF000, pattern := 0x4000 }
  | .seReg _ _ => { mnemonic := "SE_REG", mask := 0xF00F, pattern := 0x5000 }
  | .ldImm _ _ => { mnemonic := "LD_IMM", mask := 0xF000, pattern := 0x6000 }
  | .addImm _ _ => { mnemonic := "ADD_IMM", mask := 0xF000, pattern := 0x7000 }
  | .ldReg _ _ => { mnemonic := "LD_REG", mask := 0xF00F, pattern := 0x8000 }
  | .orReg _ _ => { mnemonic := "OR", mask := 0xF00F, pattern := 0x8001 }
  | .andReg _ _ => { mnemonic := "AND", mask := 0xF00F, pattern := 0x8002 }
  | .xorReg _ _ => { mnemonic := "XOR", mask := 0xF00F, pattern := 0x8003 }
  | .addReg _ _ => { mnemonic := "ADD_REG", mask := 0xF00F, pattern := 0x8004 }
  | .subReg _ _ => { mnemonic := "SUB", mask := 0xF00F, pattern := 0x8005 }
  | .shr _ _ => { mnemonic := "SHR", mask := 0xF00F, pattern := 0x8006 }
  | .subnReg _ _ => { mnemonic := "SUBN", mask := 0xF00F, pattern := 0x8007 }
  | .shl _ _ => { mnemonic := "SHL", mask := 0xF00F, pattern := 0x800E }
  | .sneReg _ _ => { mnemonic := "SNE_REG", mask := 0xF00F, pattern := 0x9000 }
  | .ldI _ => { mnemonic := "LD_I", mask := 0xF000, pattern := 0xA000 }
  | .jpV0 _ => { mnemonic := "JP_V0", mask := 0xF000, pattern := 0xB000 }
  | .rnd _ _ => { mnemonic := "RND", mask := 0xF000, pattern := 0xC000 }
  | .drw _ _ _ => { mnemonic := "DRW", mask := 0xF000, pattern := 0xD000 }
  | .skp _ => { mnemonic := "SKP", mask := 0xF0FF, pattern := 0xE09E }
  | .sknp _ => { mnemonic := "SKNP", mask := 0xF0FF, pattern := 0xE0A1 }
  | .ldVxDt _ => { mnemonic := "LD_VX_DT", mask := 0xF0FF, pattern := 0xF007 }
  | .ldVxK _ => { mnemonic := "LD_VX_K", mask := 0xF0FF, pattern := 0xF00A }
  | .ldDtVx _ => { mnemonic := "LD_DT_VX", mask := 0xF0FF, pattern := 0xF015 }
  | .ldStVx _ => { mnemonic := "LD_ST_VX", mask := 0xF0FF, pattern := 0xF018 }
  | .addIVx _ => { mnemonic := "ADD_I_VX", mask := 0xF0FF, pattern := 0xF01E }
  | .ldFVx _ => { mnemonic := "LD_F_VX", mask := 0xF0FF, pattern := 0xF029 }
  | .ldBVx _ => { mnemonic := "LD_B_VX", mask := 0xF0FF, pattern := 0xF033 }
  | .ldIVx _ => { mnemonic := "LD_I_VX", mask := 0xF0FF, pattern := 0xF055 }
  | .ldVxI _ => { mnemonic := "LD_VX_I", mask := 0xF0FF, pattern := 0xF065 }

/-- The first rows of the opcode table: 00E0 to 7xkk (R105). -/
def opcodeTableLow : List Row :=
  [Instr.cls.row,
   Instr.ret.row,
   (Instr.jp 0).row,
   (Instr.call 0).row,
   (Instr.seImm 0 0).row,
   (Instr.sneImm 0 0).row,
   (Instr.seReg 0 0).row,
   (Instr.ldImm 0 0).row,
   (Instr.addImm 0 0).row]

/-- The rows of major opcode 0x8 (R105). -/
def opcodeTableAlu : List Row :=
  [(Instr.ldReg 0 0).row,
   (Instr.orReg 0 0).row,
   (Instr.andReg 0 0).row,
   (Instr.xorReg 0 0).row,
   (Instr.addReg 0 0).row,
   (Instr.subReg 0 0).row,
   (Instr.shr 0 0).row,
   (Instr.subnReg 0 0).row,
   (Instr.shl 0 0).row]

/-- The last rows: 9xy0 to Fx65 (R105). -/
def opcodeTableHigh : List Row :=
  [(Instr.sneReg 0 0).row,
   (Instr.ldI 0).row,
   (Instr.jpV0 0).row,
   (Instr.rnd 0 0).row,
   (Instr.drw 0 0 0).row,
   (Instr.skp 0).row,
   (Instr.sknp 0).row,
   (Instr.ldVxDt 0).row,
   (Instr.ldVxK 0).row,
   (Instr.ldDtVx 0).row,
   (Instr.ldStVx 0).row,
   (Instr.addIVx 0).row,
   (Instr.ldFVx 0).row,
   (Instr.ldBVx 0).row,
   (Instr.ldIVx 0).row,
   (Instr.ldVxI 0).row]

/-- The opcode table: its 34 rows, in the table's order (R105, R108). -/
def opcodeTable : List Row := opcodeTableLow ++ opcodeTableAlu ++ opcodeTableHigh

/-- The first opcode word of an instruction whose bits are w, numbered as spec/opcode_table.json numbers them, of which
nbits are given and the rest are 0. Every instruction is one 16-bit word (R100). -/
def tableWord (nbits w : Nat) : Word := BitVec.ofNat 16 (w % 2 ^ nbits)

/-- The instruction the decoder reads from such a word, laid out as the hardware stores it (high byte first). -/
def decodeTableWord (nbits w : Nat) : Option Instr :=
  match decodeBytes (highByte (tableWord nbits w)) (lowByte (tableWord nbits w)) with
  | .instr i => some i
  | .invalid _ => none

end Sys2Proof
end

