-- ==== Sys2Proof/Machine/State.lean ====
section
/-! DEFINITION. The state of the core and its memories (10_state.md R30 to R41), the result of a step (R42, R47), and
the state after reset (70_reset_and_hazards.md R280, R281). State is plain data. -/

namespace Sys2Proof.Machine

/-- A byte-addressed memory as (address, byte) pairs: addresses strictly rising, no entry holding 0x00. An address that is
not listed reads 0x00, because construction zero-fills (20_memory.md R71, R281; log entry 11). -/
abbrev Memory := List Host.Cell

/-- The errors a step returns (60_exceptions.md R240: E1 to E4). Each is data of a NEXT state, not a stop of the model. -/
inductive StepError where
  /-- E1: the fetched word matches no row; carries IR and the fetch address pc0. Raised by the dispatch of R117. -/
  | invalidInstruction (opcode pc : Word)
  /-- E2: carries the lowest failing main-memory address. Raised by the fetch, Dxyn, Fx33, Fx55 and Fx65. -/
  | outOfBounds (address : Nat)
  /-- E3: raised by 2nnn at SP = 16. -/
  | stackOverflow
  /-- E4: raised by 00EE at SP = 0. -/
  | stackUnderflow
  deriving DecidableEq, Repr

/-- The result a step returns to its caller: Ok, or Err(e) (R47, R240). -/
inductive StepResult where
  /-- The step returned Ok. -/
  | ok
  /-- The step returned Err(e). -/
  | err (e : StepError)
  deriving DecidableEq, Repr

/-- The inputs of one step: the key mask KEY (R43) and the random byte RAND (R44). -/
structure StepInput where
  key : KeyMask
  rand : Byte
  deriving DecidableEq, Repr

/-- Why the model would stop. No instruction and no step of this core stops (R241, R242): every error is a next state. -/
inductive Fault where
  /-- A video-memory access at an address above 255, the one OutOfBounds the spec names and says cannot arise
  (20_memory.md R79, R80). No meaning and no step raises it; safe (log entry 8). -/
  | videoOutOfBounds (address : Nat)
  deriving DecidableEq, Repr

/-- Why an instruction would have no meaning. -/
inductive Refusal where
  /-- Raised by an arm of exec whose instruction has no meaning yet; safe. No arm of exec raises it. -/
  | notModelled (mnemonic : String)
  deriving DecidableEq, Repr

/-- The machine. The first nine fields are the architectural state of R30 and the two memories of R70; config holds the
parameters of R7; result is the output of the latest step (R42); the others serve one step: its inputs and the timers'
values when it began. -/
structure State where
  /-- V[0]..V[15]; V[15] is VF (R31, R32). -/
  v : Vector Byte 16
  /-- I, the index register (R34). -/
  i : Word
  /-- PC (R35). -/
  pc : Word
  /-- SP, the stack depth 0..16 (R36). The bound holds by type (log entry 9). -/
  sp : Fin 17
  /-- S[0]..S[15]; the top of a non-empty stack is S[SP-1] (R37). -/
  stack : Vector Word 16
  /-- DT (R38). -/
  dt : Byte
  /-- ST (R39). -/
  st : Byte
  /-- Main memory (R45, R71). -/
  mem : Memory
  /-- Video memory (R46, R79). -/
  vid : Memory
  /-- MEM_SIZE and WAIT_TIMER_TICK; no step writes them (R7; log entry 2). -/
  config : Config
  /-- What the latest step returned; the core never reads it (R47, R245; log entry 1). -/
  result : StepResult
  /-- DT_at_step_start of R221 (log entry 7). -/
  dtStart : Byte
  /-- ST_at_step_start of R221 (log entry 7). -/
  stStart : Byte
  /-- The model's own field: the inputs lined up for the coming steps, oldest first (R42; log entry 3). -/
  inputs : List StepInput
  /-- The model's own field: the counter the free inputs are applied to (log entry 4). -/
  stepNo : Nat
  deriving DecidableEq, Repr

/-- The machine after initialization with the parameters c: every element of R30 at its reset value, both memories
zero-filled (R280, R281). Loading the font and the ROM is the driver's (R285): see Machine/Boot.lean. -/
def State.resetWith (c : Config) : State :=
  { v := Vector.replicate 16 0x00#8
    i := 0x0000#16
    pc := 0x0200#16
    sp := 0
    stack := Vector.replicate 16 0x0000#16
    dt := 0x00#8
    st := 0x00#8
    mem := []
    vid := []
    config := c
    result := .ok
    dtStart := 0x00#8
    stStart := 0x00#8
    inputs := []
    stepNo := 0 }

/-- The machine right after reset, with the default parameters of R7. -/
def State.reset : State := State.resetWith Config.default

/-- What a meaning answers. -/
abbrev Outcome := Host.Outcome State Fault Refusal

end Sys2Proof.Machine
end

