-- ==== Sys2Proof/Machine/Memory.lean ====
section
/-! DEFINITION. The byte store both memories are (20_memory.md R71, R78, R79): read, write, the canonical form, and the
blocks of consecutive bytes that instructions access in ascending order (R74). -/

namespace Sys2Proof.Machine

/-- The byte at address a: the byte listed there, or 0x00 (R71, R281). -/
def Memory.read (m : Memory) (a : Nat) : Byte :=
  match m with
  | [] => 0x00#8
  | c :: rest => if c.1 = a then c.2 else Memory.read rest a

/-- Memory with byte b at address a, in canonical form: writing 0x00 removes the entry (R71). -/
def Memory.write (m : Memory) (a : Nat) (b : Byte) : Memory :=
  match m with
  | [] => if b = 0x00#8 then [] else [(a, b)]
  | c :: rest =>
    if a < c.1 then (if b = 0x00#8 then c :: rest else (a, b) :: c :: rest)
    else if a = c.1 then (if b = 0x00#8 then rest else (a, b) :: rest)
    else c :: Memory.write rest a b

/-- The bytes written in turn at base, base + 1, ... (R74). -/
def Memory.writeBlock (m : Memory) (base : Nat) (bytes : List Byte) : Memory :=
  match bytes with
  | [] => m
  | b :: rest => Memory.writeBlock (m.write base b) (base + 1) rest

/-- The n bytes at base, base + 1, ..., base + n - 1 (R74). -/
def Memory.readBlock (m : Memory) (base n : Nat) : List Byte :=
  (List.range n).map (fun k => m.read (base + k))

/-- The canonical form of a memory of cap bytes: addresses strictly rising, none at or above cap, no entry equal to what
an unlisted address reads as. -/
abbrev Memory.wf (cap : Nat) (m : Memory) : Prop :=
  m.Pairwise (fun c d => c.1 < d.1) ∧ ∀ c ∈ m, c.1 < cap ∧ c.2 ≠ 0x00#8

/-- The byte of video memory that holds pixel (px, py): py*8 + px div 8 (R80, D11). -/
def pixelAddress (px py : Nat) : Nat := py * 8 + px / 8

/-- The bit of that byte: 7 - (px mod 8), so the leftmost pixel is the most significant bit (R80, D11). -/
def pixelBit (px : Nat) : Nat := 7 - px % 8

/-- Pixel(px, py) of a video memory (R80). -/
def Memory.pixel (m : Memory) (px py : Nat) : Bool := (m.read (pixelAddress px py)).getLsbD (pixelBit px)

/-- The write Pixel(px, py) <- Pixel(px, py) ^ 1: a read-modify-write of the byte that changes only that bit (R80, R201). -/
def Memory.flipPixel (m : Memory) (px py : Nat) : Memory :=
  m.write (pixelAddress px py) (m.read (pixelAddress px py) ^^^ (0x01#8 <<< pixelBit px))

end Sys2Proof.Machine
end

