-- ==== Sys2Proof/Machine/Operands.lean ====
section
/-! DEFINITION. Every operand form: registers, the step's inputs, zero-extended immediates, keys, and the one addressing
mode I + k with its bounds check (30_encoding.md R104; 20_memory.md R72, R73, R77; 10_state.md R43, R44). -/

namespace Sys2Proof.Machine

/-- V[x] (R10, R31). -/
def State.reg (s : State) (x : Reg) : Byte := s.v[x.toNat]

/-- VF, the register a flag is written to: V[15] (R32). -/
abbrev regVF : Reg := 0xF#4

/-- zext_16 of a 12-bit address: no scaling and no sign extension (R9, R104). -/
def zextAddr (nnn : Addr12) : Word := nnn.setWidth 16

/-- zext_16 of a byte (R9). -/
def zextByte (b : Byte) : Word := b.setWidth 16

/-- The inputs of the current step: the head of the lined-up inputs, or free values where there is none (R42 to R44,
D24; log entries 3 and 4). -/
def State.input (s : State) : StepInput :=
  match s.inputs with
  | [] => { key := Config.freeKey s.stepNo, rand := Config.freeRand s.stepNo }
  | inp :: _ => inp

/-- KEY, the key mask of the current step; 0xFFFF is an ordinary mask (R43). -/
def State.key (s : State) : KeyMask := s.input.key

/-- RAND, the random byte of the current step (R44). -/
def State.rand (s : State) : Byte := s.input.rand

/-- pressed(v) = (v < 16) and (KEY[v] = 1) (41_skips.md R145, D10). -/
def pressed (key : KeyMask) (v : Byte) : Bool := decide (v.toNat < 16) && key.getLsbD v.toNat

/-- The key numbers 0..15 that are down, in ascending order (45_timers_keys.md R221). -/
def keysDown (key : KeyMask) : List Nat := (List.range 16).filter (fun k => key.getLsbD k)

/-- min { k in 0..15 : KEY[k] = 1 }; R221 asks for it only when some key is down. -/
def lowestKey (key : KeyMask) : Byte := BitVec.ofNat 8 ((keysDown key).headD 0)

/-- The effective address I + k as a natural number, without wrap (20_memory.md R73, D6). -/
def State.ea (s : State) (k : Nat) : Nat := s.i.toNat + k

/-- The lowest of the n addresses base, base + 1, ... at or above MEM_SIZE, if there is one (R72, R77, D5, D16). -/
def State.firstOutOfBounds (s : State) (base n : Nat) : Option Nat :=
  ((List.range n).map (fun k => base + k)).find? (fun a => decide (s.config.memSize ≤ a))

/-- The 16 registers in ascending order, cut after V[x]: the operands of Fx55 (43_index_memory.md R184). -/
def State.regsUpTo (s : State) (x : Reg) : List Byte := s.v.toList.take (x.toNat + 1)

/-- The three digits Fx33 stores: hundreds, tens, ones (R183). -/
def decimalDigits (v : Byte) : List Byte :=
  [BitVec.ofNat 8 (v.toNat / 100), BitVec.ofNat 8 (v.toNat / 10 % 10), BitVec.ofNat 8 (v.toNat % 10)]

/-- The address of the built-in sprite of digit a: a * 5, all 8 bits of a used (R182). -/
def spriteAddress (a : Byte) : Word := BitVec.ofNat 16 (a.toNat * 5)

end Sys2Proof.Machine
end

