-- ==== Sys2Proof/Machine/Ops.lean ====
section
/-! DEFINITION. The named operations the meanings are written with: register writes, the skip, the stack, block loads,
the draw, and raising an error as one shared operation (60_exceptions.md R242, R243). -/

namespace Sys2Proof.Machine

/-- V[x] <- b (R10, R31). No register is hardwired. -/
def State.setReg (s : State) (x : Reg) (b : Byte) : State := { s with v := s.v.set x.toNat b x.isLt }

/-- The two writes of a flag-writing instruction: VF first, then V[x]; with x = F the second wins (42_alu.md R151, D2). -/
def State.setFlagThenReg (s : State) (flag : Byte) (x : Reg) (b : Byte) : State := (s.setReg regVF flag).setReg x b

/-- PC <- target: a control transfer; the target is not checked (40_control_flow.md R130). -/
def State.jump (s : State) (target : Word) : State := { s with pc := target }

/-- PC <- (PC + 2) mod 2^16 when the condition holds (41_skips.md R140, D8). -/
def State.skipIf (s : State) (c : Bool) : State := if c then { s with pc := s.pc + 2#16 } else s

/-- SP <- SP + 1; S[SP-1] <- w; none when SP = 16 (R36, R37, R133, D3). -/
def State.push (s : State) (w : Word) : Option State :=
  if h : s.sp.val < 16 then
    some { s with stack := s.stack.set s.sp.val w h, sp := ⟨s.sp.val + 1, Nat.succ_lt_succ h⟩ }
  else none

/-- S[SP-1] and the state with SP <- SP - 1; the slot keeps its value; none when SP = 0 (R37, R131, D3). -/
def State.pop (s : State) : Option (Word × State) :=
  match s.sp with
  | ⟨0, _⟩ => none
  | ⟨k + 1, h⟩ => some (s.stack[k]'(Nat.lt_of_succ_lt_succ h), { s with sp := ⟨k, Nat.lt_of_succ_lt h⟩ })

/-- Raising an error: it ends the step, whose result is Err(e); nothing else changes, nothing is saved and nothing
vectors (60_exceptions.md R242, R243; log entry 1). There is no return from an error but the next step (R245). -/
def raise (e : StepError) (s : State) : Outcome := .next { s with result := .err e }

/-- An instruction that accesses n main-memory bytes from base on: every address is checked before anything is written.
It raises OutOfBounds with the lowest failing address, or answers t (20_memory.md R77, D5). -/
def checked (s : State) (base n : Nat) (t : State) : Outcome :=
  match s.firstOutOfBounds base n with
  | some a => raise (.outOfBounds a) s
  | none => .next t

/-- V[k] <- the byte at I + k, for k = 0..n-1 (43_index_memory.md R185). -/
def State.loadRegs (s : State) (n : Nat) : State :=
  (List.range n).foldl (fun t k => t.setReg (BitVec.ofNat 4 k) (s.mem.read (s.ea k))) s

/-- A video memory being drawn on, and whether a pixel has gone from 1 to 0 (44_display.md R201, R202). -/
structure Canvas where
  vid : Memory
  hit : Bool
  deriving DecidableEq, Repr

/-- One 1 bit of a sprite: hit if the pixel is on, then the pixel XOR 1 (R201). -/
def Canvas.plot (cv : Canvas) (px py : Nat) : Canvas :=
  { vid := cv.vid.flipPixel px py, hit := cv.hit || cv.vid.pixel px py }

/-- Row r of a sprite at (X, Y): column c is bit 7 - c, and both coordinates wrap (R201, D12). -/
def Canvas.plotRow (cv : Canvas) (X Y r : Nat) (row : Byte) : Canvas :=
  (List.range 8).foldl
    (fun cv c => if row.getLsbD (7 - c) then cv.plot ((X + c) % 64) ((Y + r) % 32) else cv) cv

/-- All rows of a sprite, the first at r = 0 (R201). -/
def Canvas.plotSprite (cv : Canvas) (X Y : Nat) (rows : List Byte) : Canvas :=
  rows.zipIdx.foldl (fun cv p => cv.plotRow X Y p.2 p.1) cv

end Sys2Proof.Machine
end

