-- ==== Sys2Proof/Machine/Cycle.lean ====
section
/-! DEFINITION. The instruction cycle around an instruction's own effect: fetch, PC advance, timer tick, and the end of a
step (30_encoding.md R113 to R116; 60_exceptions.md R248). -/

namespace Sys2Proof.Machine

/-- The two bytes at PC and PC + 1 as one word, or the lowest failing address. PC + 1 does not wrap (R114, R77, D6). -/
def fetch (s : State) : Except Nat Word :=
  match s.firstOutOfBounds s.pc.toNat 2 with
  | some a => .error a
  | none => .ok (wordOfBytes (s.mem.read s.pc.toNat) (s.mem.read (s.pc.toNat + 1)))

/-- The beginning of a step: its result is Ok unless it raises, and the timers' values at its start are kept for R221. -/
def State.start (s : State) : State := { s with result := .ok, dtStart := s.dt, stStart := s.st }

/-- PC <- (pc0 + 2) mod 2^16 (R115, D8). -/
def State.advance (s : State) : State := { s with pc := s.pc + 2#16 }

/-- One tick of a timer: if it is above 0, one less; a timer at 0 stays at 0 (R248). -/
def tickByte (t : Byte) : Byte := if t = 0x00#8 then 0x00#8 else t - 0x01#8

/-- TimerTick(): both timers tick, independently (R248). -/
def State.tick (s : State) : State := { s with dt := tickByte s.dt, st := tickByte s.st }

/-- The state an instruction's meaning runs in, after a successful fetch: the PC advanced, then the timers ticked, and the
instruction not yet run (R113, R116). -/
def State.enter (s : State) : State := s.start.advance.tick

/-- The end of a step: its inputs are used up and the next step has a number of its own (R42; log entries 3 and 4). -/
def State.finish (s : State) : State := { s with inputs := s.inputs.tail, stepNo := s.stepNo + 1 }

/-- The end of a step on an outcome. -/
def finishOutcome (o : Outcome) : Outcome :=
  match o with
  | .next t => .next t.finish
  | .fault r => .fault r
  | .refused r => .refused r

/-- The state with an opcode word stored where the next fetch reads it: high byte at PC, low byte at PC + 1 (R75). -/
def State.placeWord (s : State) (w : Word) : State :=
  { s with mem := (s.mem.write s.pc.toNat (highByte w)).write (s.pc.toNat + 1) (lowByte w) }

end Sys2Proof.Machine
end

