-- ==== Sys2Proof/Machine/Flags.lean ====
section
/-! DEFINITION. Every flag value the core computes. The only flag register is VF (10_state.md R32); a flag is the byte 0
or 1 (42_alu.md R150, R158 to R162; 44_display.md R201). -/

namespace Sys2Proof.Machine

/-- A condition as the byte VF takes: (c) ? 1 : 0. -/
def flagByte (c : Bool) : Byte := if c then 0x01#8 else 0x00#8

/-- The flag of 8xy4: 1 when a + b > 255, bit 8 of the 9-bit sum (R158). -/
def carryFlag (a b : Byte) : Byte := flagByte (decide (255 < a.toNat + b.toNat))

/-- The flag of 8xy5 (with a = V[x], b = V[y]) and of 8xy7 (the two exchanged): 1 exactly when a > b, strictly
(R150, R159, R161). -/
def greaterFlag (a b : Byte) : Byte := flagByte (decide (b.toNat < a.toNat))

/-- The flag of 8xy6: the bit shifted out, old bit 0 (R160). -/
def shiftRightFlag (a : Byte) : Byte := flagByte (a.getLsbD 0)

/-- The flag of 8xyE: the bit shifted out, old bit 7 (R162). -/
def shiftLeftFlag (a : Byte) : Byte := flagByte (a.getLsbD 7)

end Sys2Proof.Machine
end

