-- ==== Sys2Proof/Machine/Alu.lean ====
section
/-! DEFINITION. Register loads and the 8-bit ALU: 6xkk, 7xkk, 8xy0 to 8xy7, 8xyE, Cxkk (42_alu.md R150 to R163). Every
operand is read before any write (R11, R151, D1). -/

namespace Sys2Proof.Machine

/-- 6xkk: V[x] <- kk (R152). -/
def execLdImm (x : Reg) (kk : Byte) (s : State) : Outcome := .next (s.setReg x kk)

/-- 7xkk: V[x] <- (V[x] + kk) mod 256, no flag (R153). -/
def execAddImm (x : Reg) (kk : Byte) (s : State) : Outcome := .next (s.setReg x (s.reg x + kk))

/-- 8xy0: V[x] <- V[y] (R154). -/
def execLdReg (x y : Reg) (s : State) : Outcome := .next (s.setReg x (s.reg y))

/-- 8xy1: V[x] <- V[x] | V[y], no flag (R155). -/
def execOrReg (x y : Reg) (s : State) : Outcome := .next (s.setReg x (s.reg x ||| s.reg y))

/-- 8xy2: V[x] <- V[x] & V[y], no flag (R156). -/
def execAndReg (x y : Reg) (s : State) : Outcome := .next (s.setReg x (s.reg x &&& s.reg y))

/-- 8xy3: V[x] <- V[x] ^ V[y], no flag (R157). -/
def execXorReg (x y : Reg) (s : State) : Outcome := .next (s.setReg x (s.reg x ^^^ s.reg y))

/-- 8xy4: VF <- carry; V[x] <- (V[x] + V[y]) mod 256 (R158). -/
def execAddReg (x y : Reg) (s : State) : Outcome :=
  .next (s.setFlagThenReg (carryFlag (s.reg x) (s.reg y)) x (s.reg x + s.reg y))

/-- 8xy5: VF <- (V[x] > V[y]); V[x] <- (V[x] - V[y]) mod 256 (R159). -/
def execSubReg (x y : Reg) (s : State) : Outcome :=
  .next (s.setFlagThenReg (greaterFlag (s.reg x) (s.reg y)) x (s.reg x - s.reg y))

/-- 8xy6: VF <- V[x] bit 0; V[x] <- V[x] >> 1; V[y] is not read (R160). -/
def execShr (x : Reg) (s : State) : Outcome :=
  .next (s.setFlagThenReg (shiftRightFlag (s.reg x)) x (s.reg x >>> 1))

/-- 8xy7: VF <- (V[y] > V[x]); V[x] <- (V[y] - V[x]) mod 256 (R161). -/
def execSubnReg (x y : Reg) (s : State) : Outcome :=
  .next (s.setFlagThenReg (greaterFlag (s.reg y) (s.reg x)) x (s.reg y - s.reg x))

/-- 8xyE: VF <- V[x] bit 7; V[x] <- (V[x] << 1) mod 256; V[y] is not read (R162). -/
def execShl (x : Reg) (s : State) : Outcome :=
  .next (s.setFlagThenReg (shiftLeftFlag (s.reg x)) x (s.reg x <<< 1))

/-- Cxkk: V[x] <- RAND & kk (R163). -/
def execRnd (x : Reg) (kk : Byte) (s : State) : Outcome := .next (s.setReg x (s.rand &&& kk))

end Sys2Proof.Machine
end

