-- ==== Sys2Proof/Machine/Control.lean ====
section
/-! DEFINITION. Control transfer: 00EE, 1nnn, 2nnn, Bnnn (40_control_flow.md). PC on entry is pc0 + 2 and the timers have
ticked (R115, R116), as for every meaning. -/

namespace Sys2Proof.Machine

/-- 00EE: PC <- S[SP-1]; SP <- SP - 1; StackUnderflow at SP = 0 (R131). -/
def execRet (s : State) : Outcome :=
  match s.pop with
  | none => raise .stackUnderflow s
  | some (w, t) => .next (t.jump w)

/-- 1nnn: PC <- zext_16(nnn) (R132). -/
def execJp (nnn : Addr12) (s : State) : Outcome := .next (s.jump (zextAddr nnn))

/-- 2nnn: push PC, then PC <- zext_16(nnn); StackOverflow at SP = 16 (R133). -/
def execCall (nnn : Addr12) (s : State) : Outcome :=
  match s.push s.pc with
  | none => raise .stackOverflow s
  | some t => .next (t.jump (zextAddr nnn))

/-- Bnnn: PC <- V[0] + nnn mod 2^16, not masked to 12 bits (R134, D8). -/
def execJpV0 (nnn : Addr12) (s : State) : Outcome := .next (s.jump (zextByte (s.reg 0x0#4) + zextAddr nnn))

end Sys2Proof.Machine
end

