-- ==== Sys2Proof/Machine/Display.lean ====
section
/-! DEFINITION. The display: 00E0 and Dxyn (44_display.md R200 to R202). -/

namespace Sys2Proof.Machine

/-- The video memory with all 256 bytes 0x00 (R200): in the canonical form, nothing is listed. -/
def blankVideo : Memory := []

/-- 00E0: every video byte <- 0x00; VF unchanged (R200). -/
def execCls (s : State) : Outcome := .next { s with vid := blankVideo }

/-- The whole sprite of n rows at I, read first, then drawn at (V[x], V[y]) on the video memory (R201). -/
def State.drawSprite (s : State) (x y : Reg) (n : Nat) : Canvas :=
  Canvas.plotSprite { vid := s.vid, hit := false } (s.reg x).toNat (s.reg y).toNat (s.mem.readBlock (s.ea 0) n)

/-- Dxyn: draw, then VF <- hit; or OutOfBounds with nothing drawn and VF unchanged (R201). -/
def execDrw (x y : Reg) (n : Nibble) (s : State) : Outcome :=
  checked s (s.ea 0) n.toNat
    (State.setReg { s with vid := (s.drawSprite x y n.toNat).vid } regVF (flagByte (s.drawSprite x y n.toNat).hit))

end Sys2Proof.Machine
end

