-- ==== Sys2Proof/Machine/IndexMemory.lean ====
section
/-! DEFINITION. The index register and memory transfers: Annn, Fx1E, Fx29, Fx33, Fx55, Fx65 (43_index_memory.md R180 to
R185). No transfer changes I. -/

namespace Sys2Proof.Machine

/-- Annn: I <- zext_16(nnn) (R180). -/
def execLdI (nnn : Addr12) (s : State) : Outcome := .next { s with i := zextAddr nnn }

/-- Fx1E: I <- (I + V[x]) mod 2^16, no flag (R181, D7). -/
def execAddIVx (x : Reg) (s : State) : Outcome := .next { s with i := s.i + zextByte (s.reg x) }

/-- Fx29: I <- V[x] * 5 (R182). -/
def execLdFVx (x : Reg) (s : State) : Outcome := .next { s with i := spriteAddress (s.reg x) }

/-- Fx33: the decimal digits of V[x] to I, I+1, I+2, or OutOfBounds with nothing written (R183). -/
def execLdBVx (x : Reg) (s : State) : Outcome :=
  checked s (s.ea 0) 3 { s with mem := s.mem.writeBlock (s.ea 0) (decimalDigits (s.reg x)) }

/-- Fx55: V[0]..V[x] to I..I+x, or OutOfBounds with nothing written (R184). -/
def execLdIVx (x : Reg) (s : State) : Outcome :=
  checked s (s.ea 0) (x.toNat + 1) { s with mem := s.mem.writeBlock (s.ea 0) (s.regsUpTo x) }

/-- Fx65: V[0]..V[x] from I..I+x, or OutOfBounds with no register written (R185). -/
def execLdVxI (x : Reg) (s : State) : Outcome :=
  checked s (s.ea 0) (x.toNat + 1) (s.loadRegs (x.toNat + 1))

end Sys2Proof.Machine
end

