-- ==== Sys2Proof/Machine/Skips.lean ====
section
/-! DEFINITION. Conditional skips: 3xkk, 4xkk, 5xy0, 9xy0, Ex9E, ExA1 (41_skips.md R140 to R147). -/

namespace Sys2Proof.Machine

/-- 3xkk: skip if V[x] = kk (R141). -/
def execSeImm (x : Reg) (kk : Byte) (s : State) : Outcome := .next (s.skipIf (s.reg x == kk))

/-- 4xkk: skip if V[x] differs from kk (R142). -/
def execSneImm (x : Reg) (kk : Byte) (s : State) : Outcome := .next (s.skipIf (s.reg x != kk))

/-- 5xy0: skip if V[x] = V[y] (R143). -/
def execSeReg (x y : Reg) (s : State) : Outcome := .next (s.skipIf (s.reg x == s.reg y))

/-- 9xy0: skip if V[x] differs from V[y] (R144). -/
def execSneReg (x y : Reg) (s : State) : Outcome := .next (s.skipIf (s.reg x != s.reg y))

/-- Ex9E: skip if key V[x] is down (R145, R146). -/
def execSkp (x : Reg) (s : State) : Outcome := .next (s.skipIf (pressed s.key (s.reg x)))

/-- ExA1: skip if key V[x] is up (R145, R147). -/
def execSknp (x : Reg) (s : State) : Outcome := .next (s.skipIf (!pressed s.key (s.reg x)))

end Sys2Proof.Machine
end

