-- ==== Sys2Proof/Machine/TimersKeys.lean ====
section
/-! DEFINITION. Timer access and wait-for-key: Fx07, Fx0A, Fx15, Fx18 (45_timers_keys.md R220 to R223). The timers have
already ticked in this step (R116). -/

namespace Sys2Proof.Machine

/-- Fx07: V[x] <- DT (R220). -/
def execLdVxDt (x : Reg) (s : State) : Outcome := .next (s.setReg x s.dt)

/-- Undoing the timer tick of this step, where WAIT_TIMER_TICK is false (R221, D9). -/
def State.undoTickUnlessKept (s : State) : State :=
  if s.config.waitTimerTick then s else { s with dt := s.dtStart, st := s.stStart }

/-- A blocked Fx0A: PC <- (PC - 2) mod 2^16, so that it runs again in the next step (R221, R253). -/
def State.blockOnKey (s : State) : State := State.undoTickUnlessKept { s with pc := s.pc - 2#16 }

/-- Fx0A: with no key down the instruction blocks; otherwise V[x] <- the lowest key down (R221). -/
def execLdVxK (x : Reg) (s : State) : Outcome :=
  .next (if s.key = 0x0000#16 then s.blockOnKey else s.setReg x (lowestKey s.key))

/-- Fx15: DT <- V[x] (R222). -/
def execLdDtVx (x : Reg) (s : State) : Outcome := .next { s with dt := s.reg x }

/-- Fx18: ST <- V[x] (R223). -/
def execLdStVx (x : Reg) (s : State) : Outcome := .next { s with st := s.reg x }

end Sys2Proof.Machine
end

