-- ==== Sys2Proof/Machine/Step.lean ====
section
/-! DEFINITION. One step of the core (30_encoding.md R113): fetch, advance, tick, decode, dispatch. -/

namespace Sys2Proof.Machine

/-- step(KEY, RAND). A fetch error leaves the state as it was (R114, R243 a); a word that matches no row raises
InvalidInstruction with the word and pc0 after the PC advance and the tick (R117, R243 b); any other word runs its
instruction in the state after the advance and the tick (R113, R116). -/
def step (s : State) : Host.Outcome State Fault Refusal :=
  match fetch s with
  | .error a => finishOutcome (raise (.outOfBounds a) s.start)
  | .ok ir =>
    match decode ir with
    | .invalid w => finishOutcome (raise (.invalidInstruction w s.pc) s.enter)
    | .instr i => finishOutcome (exec i s.enter)

/-- The state with an instruction, whose bits are w as spec/opcode_table.json numbers them, stored at PC, so that the very
next step fetches and runs it (log entry 5). -/
def State.withFetchWord (s : State) (nbits w : Nat) : State := s.placeWord (tableWord nbits w)

end Sys2Proof.Machine
end

