-- ==== Sys2Proof/Machine/Boot.lean ====
section
/-! DEFINITION. How a program comes to run: the boot order of 70_reset_and_hazards.md R285. No step does any of it: the
driver and the loader do (log entry 5). -/

namespace Sys2Proof.Machine

/-- The default FONT, the customary table GK2 of 93_implementation_defined.md: 16 digits, 5 bytes each (R7, R284, D19;
PRESUMED, the spec gives it from general knowledge; log entry 12). -/
def defaultFont : List Byte :=
  [0xF0, 0x90, 0x90, 0x90, 0xF0, 0x20, 0x60, 0x20, 0x20, 0x70, 0xF0, 0x10, 0xF0, 0x80, 0xF0, 0xF0, 0x10, 0xF0, 0x10, 0xF0]
  ++ [0x90, 0x90, 0xF0, 0x10, 0x10, 0xF0, 0x80, 0xF0, 0x10, 0xF0, 0xF0, 0x80, 0xF0, 0x90, 0xF0, 0xF0, 0x10, 0x20, 0x40, 0x40]
  ++ [0xF0, 0x90, 0xF0, 0x90, 0xF0, 0xF0, 0x90, 0xF0, 0x10, 0xF0, 0xF0, 0x90, 0xF0, 0x90, 0x90, 0xE0, 0x90, 0xE0, 0x90, 0xE0]
  ++ [0xF0, 0x80, 0x80, 0x80, 0xF0, 0xE0, 0x90, 0x90, 0x90, 0xE0, 0xF0, 0x80, 0xF0, 0x80, 0xF0, 0xF0, 0x80, 0xF0, 0x80, 0x80]

/-- The address the font is loaded at (R7 FONT_BASE, R284). -/
def fontBase : Nat := 0x000

/-- The conventional load address of programs, where the first fetch is (R81, R282). -/
def programBase : Nat := 0x200

/-- The machine ready for its first step: zero-filled memories, the font at 0x000, the ROM at 0x200, the core initialized
(R285). none where the spec leaves the loader open: a ROM that does not fit, or a font that is not 80 bytes (R283, D28). -/
def State.boot (c : Config) (font rom : List Byte) : Option State :=
  if FontWellFormed font ∧ RomFits c rom then
    some { State.resetWith c with
      mem := Memory.writeBlock (Memory.writeBlock [] fontBase font) programBase rom }
  else none

end Sys2Proof.Machine
end

