-- ==== Sys2Proof/Safety.lean ====
section
/-! DEFINITION. What claims are stated in: the result a step returns, a run in which every step returned Ok
(92_eei_decisions.md D26), and the invariant of the state. -/

namespace Sys2Proof.Machine

/-- The step from s returns r and leaves t (10_state.md R42, R47). -/
abbrev StepReturns (s : State) (r : StepResult) (t : State) : Prop := step s = .next t ∧ t.result = r

/-- k steps lead from s to t and every one of them returned Ok (D26). -/
def RunOk (k : Nat) (s t : State) : Prop :=
  match k with
  | 0 => t = s
  | n + 1 => ∃ u, StepReturns s .ok u ∧ RunOk n u t

/-- The invariant of the machine: the parameters are within their bounds (00_scope.md R7), main memory is canonical and
lists no address at or above MEM_SIZE (R71, R72), video memory is canonical and lists no address above 255 (R79). -/
abbrev State.Inv (s : State) : Prop :=
  s.config.WellFormed ∧ Memory.wf s.config.memSize s.mem ∧ Memory.wf 256 s.vid

/-- The instruction's word has these fixed bits, and decodes to the instruction (30_encoding.md R102, R103). -/
abbrev EncodedAs (i : Instr) (mask pattern : Word) : Prop :=
  encode i &&& mask = pattern ∧ decode (encode i) = .instr i

/-- The general registers an instruction may write: the "writes" column of the table of 10_state.md R33. -/
def mayWriteReg (i : Instr) (k : Reg) : Prop :=
  match i with
  | .cls => False
  | .ret => False
  | .jp _ => False
  | .call _ => False
  | .seImm _ _ => False
  | .sneImm _ _ => False
  | .seReg _ _ => False
  | .ldImm x _ => k = x
  | .addImm x _ => k = x
  | .ldReg x _ => k = x
  | .orReg x _ => k = x
  | .andReg x _ => k = x
  | .xorReg x _ => k = x
  | .addReg x _ => k = x ∨ k = regVF
  | .subReg x _ => k = x ∨ k = regVF
  | .shr x _ => k = x ∨ k = regVF
  | .subnReg x _ => k = x ∨ k = regVF
  | .shl x _ => k = x ∨ k = regVF
  | .sneReg _ _ => False
  | .ldI _ => False
  | .jpV0 _ => False
  | .rnd x _ => k = x
  | .drw _ _ _ => k = regVF
  | .skp _ => False
  | .sknp _ => False
  | .ldVxDt x => k = x
  | .ldVxK x => k = x
  | .ldDtVx _ => False
  | .ldStVx _ => False
  | .addIVx _ => False
  | .ldFVx _ => False
  | .ldBVx _ => False
  | .ldIVx _ => False
  | .ldVxI x => k.toNat ≤ x.toNat

/-- Whether the n-row sprite at I, drawn at (V[x], V[y]), has a 1 bit on pixel (px, py) of the screen: the column and row
of the sprite that wrap onto that pixel, read from the bytes I, I + 1, ... (44_display.md R201). -/
def State.spriteOn (s : State) (x y : Reg) (n px py : Nat) : Bool :=
  let c := (px + 64 - (s.reg x).toNat % 64) % 64
  let r := (py + 32 - (s.reg y).toNat % 32) % 32
  decide (c < 8) && decide (r < n) && (s.mem.read (s.ea r)).getLsbD (7 - c)

end Sys2Proof.Machine
end

