-- ==== Sys2Proof/Certificates/Slice0/Obligations.lean ====
section
/-! DEFINITION. The statements for the provers. Each docstring names the rule of spec/ it formalises. A statement about
exec speaks of the state an instruction runs in: PC already advanced and the timers ticked (30_encoding.md R115, R116).
Where a rule rests on a decision the spec marks as its own (92_eei_decisions.md), the docstring says so. -/

open Sys2Proof Sys2Proof.Machine

-- ==== decoding and encoding ====

/-- 30_encoding.md sections 2 and 3: for every instruction, with every operand at every value, decoding its word gives it
back. -/
def Obligations.DecodeGivesBackTheEncodedInstruction : Prop :=
  ∀ i : Instr, decode (encode i) = .instr i

/-- 30_encoding.md sections 1 to 3: a word that decodes to an instruction is exactly that instruction's word, the ignored
y of 8xy6 and 8xyE included. -/
def Obligations.EncodeGivesBackTheDecodedWord : Prop :=
  ∀ (w : Word) (i : Instr), decode w = .instr i → encode i = w

/-- 30_encoding.md section 6 (R117) and section 3 (R106): a word decodes to an instruction exactly when it fits a row of
the table, to the instruction of that row, and no other row fits it; a word that fits no row decodes to Invalid. -/
def Obligations.DecodeChoosesTheOneRowThatFits : Prop :=
  (∀ (w : Word) (i : Instr), decode w = .instr i →
    i.row ∈ opcodeTable ∧ i.row.fits w = true ∧ ∀ r ∈ opcodeTable, r.fits w = true → r = i.row) ∧
  (∀ w : Word, decode w = .invalid w ↔ ∀ r ∈ opcodeTable, r.fits w = false)

/-- 30_encoding.md section 4 (R107, without its counts): the invalid words are exactly the listed ones, and an Invalid
carries the raw bits (R118). -/
def Obligations.InvalidWordsAreTheListedOnes : Prop :=
  ∀ w : Word, (∀ w', decode w = .invalid w' → w' = w) ∧
    (decode w = .invalid w ↔
      (opField w = 0x0#4 ∧ w ≠ 0x00E0#16 ∧ w ≠ 0x00EE#16) ∨
      (opField w = 0x5#4 ∧ nField w ≠ 0x0#4) ∨
      (opField w = 0x8#4 ∧ nField w ∈ [0x8#4, 0x9#4, 0xA#4, 0xB#4, 0xC#4, 0xD#4, 0xF#4]) ∨
      (opField w = 0x9#4 ∧ nField w ≠ 0x0#4) ∨
      (opField w = 0xE#4 ∧ kkField w ∉ [0x9E#8, 0xA1#8]) ∨
      (opField w = 0xF#4 ∧
        kkField w ∉ [0x07#8, 0x0A#8, 0x15#8, 0x18#8, 0x1E#8, 0x29#8, 0x33#8, 0x55#8, 0x65#8]))

/-- 30_encoding.md section 3: a few words written out from the formats decode to the instructions they stand for. -/
def Obligations.WrittenOutWordsDecode : Prop :=
  decode 0x00EE#16 = .instr .ret ∧
  decode 0x2ABC#16 = .instr (.call 0xABC#12) ∧
  decode 0x3A5C#16 = .instr (.seImm 0xA#4 0x5C#8) ∧
  decode 0x8B4E#16 = .instr (.shl 0xB#4 0x4#4) ∧
  decode 0xD12F#16 = .instr (.drw 0x1#4 0x2#4 0xF#4) ∧
  decode 0xE6A1#16 = .instr (.sknp 0x6#4) ∧
  decode 0xF355#16 = .instr (.ldIVx 0x3#4) ∧
  decode 0x0123#16 = .invalid 0x0123#16

-- ==== the instruction cycle ====

/-- 30_encoding.md section 6: when the two bytes at PC are in bounds and decode to an instruction, the step is that
instruction's effect in the state with PC + 2, each timer one tick down and the result Ok, and then the step's inputs are
used up. dtStart, stStart, inputs and stepNo are the model's own fields (log entries 3, 4 and 7). -/
def Obligations.StepRunsTheDecodedInstruction : Prop :=
  ∀ (s : State) (i : Instr), s.pc.toNat + 2 ≤ s.config.memSize →
    decodeBytes (s.mem.read s.pc.toNat) (s.mem.read (s.pc.toNat + 1)) = .instr i →
    step s = finishOutcome (exec i { s with
      pc := s.pc + 2#16
      dt := BitVec.ofNat 8 (s.dt.toNat - 1)
      st := BitVec.ofNat 8 (s.st.toNat - 1)
      result := .ok
      dtStart := s.dt
      stStart := s.st }) ∧
    ∀ t : State, finishOutcome (.next t) = .next { t with inputs := t.inputs.tail, stepNo := t.stepNo + 1 }

/-- 30_encoding.md section 6 (R114; the address without wrap and the state after the error are the spec's own decisions D6
and D4): a fetch in bounds reads b0 * 256 + b1; a step whose fetch is out of bounds raises OutOfBounds with PC, or with
PC + 1 where only that fails, and PC, the timers and all other architectural state are unchanged. That the error is a next
state with a result is the model's form (log entry 1); dtStart, stStart, inputs and stepNo are the model's own fields (log
entries 7, 3 and 4). -/
def Obligations.FetchReadsBigEndianOrRaises : Prop :=
  ∀ s : State,
    (s.pc.toNat + 1 < s.config.memSize → ∃ w, fetch s = .ok w ∧
      w.toNat = (s.mem.read s.pc.toNat).toNat * 256 + (s.mem.read (s.pc.toNat + 1)).toNat) ∧
    (s.config.memSize ≤ s.pc.toNat →
      step s = .next { s with
        result := .err (.outOfBounds s.pc.toNat)
        dtStart := s.dt
        stStart := s.st
        inputs := s.inputs.tail
        stepNo := s.stepNo + 1 }) ∧
    (s.pc.toNat < s.config.memSize → s.config.memSize ≤ s.pc.toNat + 1 →
      step s = .next { s with
        result := .err (.outOfBounds (s.pc.toNat + 1))
        dtStart := s.dt
        stStart := s.st
        inputs := s.inputs.tail
        stepNo := s.stepNo + 1 })

/-- 30_encoding.md section 6 (R117) and 60_exceptions.md section 2 (the spec's own decision D4): a fetched word that
matches no row raises InvalidInstruction with the word and the fetch address, PC holds the advance and the timers have
ticked. -/
def Obligations.InvalidWordIsReportedWithItsAddress : Prop :=
  ∀ (s : State) (w : Word), fetch s = .ok w → (∀ r ∈ opcodeTable, r.fits w = false) →
    step s = .next { s with
      pc := s.pc + 2#16
      dt := BitVec.ofNat 8 (s.dt.toNat - 1)
      st := BitVec.ofNat 8 (s.st.toNat - 1)
      result := .err (.invalidInstruction w s.pc)
      dtStart := s.dt
      stStart := s.st
      inputs := s.inputs.tail
      stepNo := s.stepNo + 1 }

/-- R248: in every step whose fetch succeeded both timers go down by one and stay at 0 at 0, independently, unless the
instruction itself writes that timer or is a blocked Fx0A with WAIT_TIMER_TICK = false; a step whose fetch fails does not
tick. -/
def Obligations.TimersTickOncePerFetchedStep : Prop :=
  ∀ s u : State, step s = .next u →
    (s.config.memSize < s.pc.toNat + 2 → u.dt = s.dt ∧ u.st = s.st) ∧
    (∀ w, fetch s = .ok w → decode w = .invalid w →
      u.dt.toNat = s.dt.toNat - 1 ∧ u.st.toNat = s.st.toNat - 1) ∧
    (∀ w i, fetch s = .ok w → decode w = .instr i →
      (i.row.mnemonic ∉ ["LD_DT_VX", "LD_VX_K"] → u.dt.toNat = s.dt.toNat - 1) ∧
      (i.row.mnemonic ∉ ["LD_ST_VX", "LD_VX_K"] → u.st.toNat = s.st.toNat - 1) ∧
      (i.row.mnemonic = "LD_VX_K" → s.key ≠ 0x0000#16 ∨ s.config.waitTimerTick = true →
        u.dt.toNat = s.dt.toNat - 1 ∧ u.st.toNat = s.st.toNat - 1) ∧
      (i.row.mnemonic = "LD_VX_K" → s.key = 0x0000#16 → s.config.waitTimerTick = false →
        u.dt = s.dt ∧ u.st = s.st))

/-- 60_exceptions.md section 1: every step of every state completes with a result; none stops the machine (the model's
form of "all failures are returned as explicit results", log entry 1). -/
def Obligations.EveryStepCompletes : Prop :=
  ∀ s : State, ∃ u : State, step s = .next u

/-- 60_exceptions.md section 2 (R243, the spec's own decision D4): after a fetch error the state is unchanged; after any
other error PC holds pc0 + 2, the timers have ticked and no register, I, SP, stack word, memory byte or video byte has
changed. -/
def Obligations.AnErrorLeavesOnlyTheCompletedSubSteps : Prop :=
  ∀ (s u : State) (e : StepError), StepReturns s (.err e) u →
    (s.config.memSize < s.pc.toNat + 2 →
      u = { s with
        result := .err e
        dtStart := s.dt
        stStart := s.st
        inputs := s.inputs.tail
        stepNo := s.stepNo + 1 }) ∧
    (s.pc.toNat + 2 ≤ s.config.memSize →
      u = { s with
        pc := s.pc + 2#16
        dt := BitVec.ofNat 8 (s.dt.toNat - 1)
        st := BitVec.ofNat 8 (s.st.toNat - 1)
        result := .err e
        dtStart := s.dt
        stStart := s.st
        inputs := s.inputs.tail
        stepNo := s.stepNo + 1 })

/-- 60_exceptions.md sections 1 and 2 (the "raised by" column of R240; the order of R244 is the spec's own decision D16):
which error a step can return, and when. -/
def Obligations.EachErrorHasItsCause : Prop :=
  ∀ (s u : State) (e : StepError), StepReturns s (.err e) u →
    match e with
    | .invalidInstruction w p => fetch s = .ok w ∧ decode w = .invalid w ∧ p = s.pc
    | .stackOverflow => s.sp.val = 16 ∧ ∃ w nnn, fetch s = .ok w ∧ decode w = .instr (.call nnn)
    | .stackUnderflow => s.sp.val = 0 ∧ ∃ w, fetch s = .ok w ∧ decode w = .instr .ret
    | .outOfBounds a => s.config.memSize ≤ a ∧
        (fetch s = .error a ∨ ∃ w i, fetch s = .ok w ∧ decode w = .instr i ∧ s.i.toNat ≤ a ∧
          i.row.mnemonic ∈ ["DRW", "LD_B_VX", "LD_I_VX", "LD_VX_I"])

/-- 60_exceptions.md section 2 (R245): the core keeps no record of a past error, and of the timers' values at the start of
a past step: a step does not depend on them. -/
def Obligations.APastErrorLeavesNoTrace : Prop :=
  ∀ (s : State) (r : StepResult) (d t : Byte), step { s with result := r, dtStart := d, stStart := t } = step s

/-- 10_state.md section 8 (R42: inputs are given to each step) and 00_scope.md section 4: a step uses up exactly one
step's inputs and never changes the parameters. inputs and stepNo are the model's own fields (log entries 2 to 4). -/
def Obligations.AStepUsesOneInputAndKeepsTheParameters : Prop :=
  ∀ s u : State, step s = .next u →
    u.config = s.config ∧ u.inputs = s.inputs.tail ∧ u.stepNo = s.stepNo + 1

-- ==== reset, invariant ====

/-- 10_state.md section 1 and 70_reset_and_hazards.md section 1: what reset leaves, every memory byte and every pixel
included (I and video memory by the spec's own decision D13; the default parameters of R7). -/
def Obligations.ResetLeavesTheListedValues : Prop :=
  (∀ x : Reg, State.reset.reg x = 0x00#8) ∧ State.reset.i = 0x0000#16 ∧ State.reset.pc = 0x0200#16 ∧
  State.reset.sp = 0 ∧ (∀ k : Fin 16, State.reset.stack[k] = 0x0000#16) ∧
  State.reset.dt = 0x00#8 ∧ State.reset.st = 0x00#8 ∧
  (∀ a, State.reset.mem.read a = 0x00#8) ∧ (∀ a, State.reset.vid.read a = 0x00#8) ∧
  State.reset.config.memSize = 4096 ∧ State.reset.config.waitTimerTick = true

/-- 20_memory.md sections 2 and 4: reset meets the invariant. -/
def Obligations.InvariantHoldsAtReset : Prop := State.reset.Inv

/-- 20_memory.md sections 2 and 4, 00_scope.md section 4: every step from every state that meets the invariant leaves a
state that meets it: main memory stays within MEM_SIZE and video memory within 256 bytes, both canonical. -/
def Obligations.EveryStepKeepsTheInvariant : Prop :=
  ∀ s u : State, s.Inv → step s = .next u → u.Inv

/-- 92_eei_decisions.md D26 and 10_state.md section 8: a run of k steps that all returned Ok leads from a state that meets
the invariant to one that meets it, uses up k steps' inputs and keeps the parameters. -/
def Obligations.AnOkRunKeepsTheInvariant : Prop :=
  ∀ (k : Nat) (s t : State), s.Inv → RunOk k s t →
    t.Inv ∧ t.config = s.config ∧ t.inputs = s.inputs.drop k ∧ t.stepNo = s.stepNo + k

/-- 70_reset_and_hazards.md section 2 (R285): booting loads the font at 0x000 and the ROM at 0x200, leaves every other
byte zero and the core at its reset values, and meets the invariant; it is possible for every 80-byte font and every ROM
that fits. That a ROM that does not fit is refused is the model's choice (log entry 5). -/
def Obligations.BootLoadsFontAndRom : Prop :=
  ∀ (c : Config) (font rom : List Byte), c.WellFormed → FontWellFormed font → RomFits c rom →
    ∃ s, State.boot c font rom = some s ∧
      (∀ k, k < 80 → font[k]? = some (s.mem.read k)) ∧
      (∀ k, k < rom.length → rom[k]? = some (s.mem.read (0x200 + k))) ∧
      (∀ a, 80 ≤ a → a < 0x200 ∨ 0x200 + rom.length ≤ a → s.mem.read a = 0x00#8) ∧
      s = { State.resetWith c with mem := s.mem } ∧ s.Inv

-- ==== frames over all instructions ====

/-- 10_state.md section 2 (the "writes" column of R33): an instruction changes no general register the table does not give
it. -/
def Obligations.OnlyTheTablesRegistersAreWritten : Prop :=
  ∀ (i : Instr) (s t : State) (k : Reg), exec i s = .next t → ¬ mayWriteReg i k → t.reg k = s.reg k

/-- 10_state.md section 3: only Annn, Fx1E and Fx29 write I. -/
def Obligations.OnlyThreeInstructionsWriteI : Prop :=
  ∀ (i : Instr) (s t : State), exec i s = .next t →
    i.row.mnemonic ∉ ["LD_I", "ADD_I_VX", "LD_F_VX"] → t.i = s.i

/-- 40_control_flow.md (R135, derived by the spec): only jumps, call, return, skips and a blocked Fx0A write PC, and only
2nnn and 00EE touch SP and the stack. -/
def Obligations.OnlyControlTransfersWritePcAndStack : Prop :=
  ∀ (i : Instr) (s t : State), exec i s = .next t →
    (i.row.mnemonic ∉ ["RET", "JP", "CALL", "JP_V0", "SE_IMM", "SNE_IMM", "SE_REG", "SNE_REG", "SKP", "SKNP", "LD_VX_K"] →
      t.pc = s.pc) ∧
    (i.row.mnemonic = "LD_VX_K" → s.key ≠ 0x0000#16 → t.pc = s.pc) ∧
    (i.row.mnemonic ∉ ["CALL", "RET"] → t.sp = s.sp ∧ t.stack = s.stack)

/-- 20_memory.md section 2 (the table of R74): only Fx33 and Fx55 write main memory, Fx33 only the 3 bytes from I on and
Fx55 only the x + 1 bytes from I on; every other byte reads as before. -/
def Obligations.OnlyStoresWriteMainMemory : Prop :=
  ∀ (i : Instr) (s t : State), exec i s = .next t → ∀ a : Nat,
    (∀ x, i = .ldBVx x → a < s.ea 0 ∨ s.ea 0 + 3 ≤ a) →
    (∀ x, i = .ldIVx x → a < s.ea 0 ∨ s.ea 0 + (x.toNat + 1) ≤ a) →
    t.mem.read a = s.mem.read a

/-- 20_memory.md section 4: only 00E0 and Dxyn write video memory. -/
def Obligations.OnlyDisplayInstructionsWriteVideo : Prop :=
  ∀ (i : Instr) (s t : State), exec i s = .next t → i.row.mnemonic ∉ ["CLS", "DRW"] → t.vid = s.vid

/-- 60_exceptions.md section 4 (R249): only Fx15 writes DT and only Fx18 writes ST (beside the tick, and a blocked Fx0A
that undoes it where WAIT_TIMER_TICK is false); every instruction keeps the parameters, the step's inputs and the timers'
start values. -/
def Obligations.OnlyTimerInstructionsWriteTimers : Prop :=
  ∀ (i : Instr) (s t : State), exec i s = .next t →
    (i.row.mnemonic ∉ ["LD_DT_VX", "LD_VX_K"] → t.dt = s.dt) ∧
    (i.row.mnemonic ∉ ["LD_ST_VX", "LD_VX_K"] → t.st = s.st) ∧
    (i.row.mnemonic = "LD_VX_K" → s.key ≠ 0x0000#16 ∨ s.config.waitTimerTick = true → t.dt = s.dt ∧ t.st = s.st) ∧
    t.config = s.config ∧ t.inputs = s.inputs ∧ t.stepNo = s.stepNo ∧ t.dtStart = s.dtStart ∧ t.stStart = s.stStart

/-- 10_state.md section 8: KEY is read only by Ex9E, ExA1 and Fx0A, and RAND only by Cxkk. With other inputs, every other
instruction does the same; Cxkk does the same where RAND is the same, the key instructions where KEY is the same. -/
def Obligations.OnlyFourInstructionsReadTheInputs : Prop :=
  ∀ (i : Instr) (s t : State) (ins : List StepInput) (n : Nat), exec i s = .next t →
    (i.row.mnemonic ∈ ["SKP", "SKNP", "LD_VX_K"] → State.key { s with inputs := ins, stepNo := n } = s.key) →
    (i.row.mnemonic = "RND" → State.rand { s with inputs := ins, stepNo := n } = s.rand) →
    exec i { s with inputs := ins, stepNo := n } = .next { t with inputs := ins, stepNo := n }

/-- 10_state.md section 6 (R39): no instruction reads ST: with another value in ST everything but ST comes out the same;
ST keeps that other value, unless the instruction sets it (Fx18, and a blocked Fx0A where WAIT_TIMER_TICK is false). -/
def Obligations.NoInstructionReadsSt : Prop :=
  ∀ (i : Instr) (s t : State) (b : Byte), exec i s = .next t → ∃ c : Byte,
    exec i { s with st := b } = .next { t with st := c } ∧
    (i.row.mnemonic ∉ ["LD_ST_VX", "LD_VX_K"] → c = b) ∧
    (i.row.mnemonic = "LD_ST_VX" → c = t.st) ∧
    (i.row.mnemonic = "LD_VX_K" → s.key ≠ 0x0000#16 ∨ s.config.waitTimerTick = true → c = b) ∧
    (i.row.mnemonic = "LD_VX_K" → s.key = 0x0000#16 → s.config.waitTimerTick = false → c = t.st)

-- ==== control transfer ====

/-- R132: 1nnn, encoded as the rule says, puts the zero-extended nnn in PC and changes nothing else, odd and out-of-range
targets included. -/
def Obligations.JumpGoesToItsTarget : Prop :=
  ∀ (s : State) (nnn : Addr12), EncodedAs (.jp nnn) 0xF000 0x1000 ∧ ∃ t, exec (.jp nnn) s = .next t ∧
    t.pc.toNat = nnn.toNat ∧ t = { s with pc := t.pc }

/-- 40_control_flow.md (R133; the slot numbers and the state after the error are the spec's own decisions D3 and D4):
below depth 16, 2nnn pushes PC and jumps to nnn; at depth 16 it raises StackOverflow and SP, S and PC stay. -/
def Obligations.CallPushesTheNextAddressOrOverflows : Prop :=
  ∀ (s : State) (nnn : Addr12),
    (s.sp.val < 16 → ∃ t, exec (.call nnn) s = .next t ∧
      t.sp.val = s.sp.val + 1 ∧ t.stack[s.sp.val]? = some s.pc ∧
      (∀ k : Nat, k ≠ s.sp.val → t.stack[k]? = s.stack[k]?) ∧ t.pc.toNat = nnn.toNat ∧
      t = { s with pc := t.pc, sp := t.sp, stack := t.stack }) ∧
    (s.sp.val = 16 → exec (.call nnn) s = .next { s with result := .err .stackOverflow })

/-- 40_control_flow.md (R131; decisions D3 and D4 as for the call): above depth 0, 00EE puts S[SP-1] in PC and lowers SP,
and the slot keeps its value; at depth 0 it raises StackUnderflow and SP, S, the registers and PC stay. -/
def Obligations.ReturnPopsOrUnderflows : Prop :=
  ∀ s : State,
    (0 < s.sp.val → ∃ t, exec .ret s = .next t ∧
      s.stack[s.sp.val - 1]? = some t.pc ∧ t.sp.val + 1 = s.sp.val ∧ t = { s with pc := t.pc, sp := t.sp }) ∧
    (s.sp.val = 0 → exec .ret s = .next { s with result := .err .stackUnderflow })

/-- 40_control_flow.md (the round trip in R133's corner cases): a call followed by a return at its target restores the
next PC and the depth. -/
def Obligations.ReturnUndoesCall : Prop :=
  ∀ (s : State) (nnn : Addr12), s.sp.val < 16 → ∃ t u, exec (.call nnn) s = .next t ∧ exec .ret t = .next u ∧
    u.pc = s.pc ∧ u.sp = s.sp ∧ u = { s with stack := u.stack }

/-- 40_control_flow.md (R134; that the target is not masked is the spec's own decision D8): Bnnn puts V[0] + nnn in PC,
whatever x nibble the word has. -/
def Obligations.JumpWithOffsetAddsV0 : Prop :=
  ∀ (s : State) (nnn : Addr12), ∃ t, exec (.jpV0 nnn) s = .next t ∧
    t.pc.toNat = (s.reg 0x0#4).toNat + nnn.toNat ∧ t = { s with pc := t.pc }

-- ==== skips ====

/-- R141, R142: 3xkk skips exactly when V[x] = kk and 4xkk exactly when not; nothing but PC changes. -/
def Obligations.ImmediateSkipsCompareWithKk : Prop :=
  ∀ (s : State) (x : Reg) (kk : Byte),
    EncodedAs (.seImm x kk) 0xF000 0x3000 ∧ EncodedAs (.sneImm x kk) 0xF000 0x4000 ∧
    exec (.seImm x kk) s = .next { s with pc := if s.reg x = kk then s.pc + 2#16 else s.pc } ∧
    exec (.sneImm x kk) s = .next { s with pc := if s.reg x = kk then s.pc else s.pc + 2#16 }

/-- R143, R144: 5xy0 skips exactly when V[x] = V[y] and 9xy0 exactly when not; nothing but PC changes. -/
def Obligations.RegisterSkipsCompareTheRegisters : Prop :=
  ∀ (s : State) (x y : Reg),
    EncodedAs (.seReg x y) 0xF00F 0x5000 ∧ EncodedAs (.sneReg x y) 0xF00F 0x9000 ∧
    (∀ w, opField w = 0x5#4 ∨ opField w = 0x9#4 → nField w ≠ 0x0#4 → decode w = .invalid w) ∧
    exec (.seReg x y) s = .next { s with pc := if s.reg x = s.reg y then s.pc + 2#16 else s.pc } ∧
    exec (.sneReg x y) s = .next { s with pc := if s.reg x = s.reg y then s.pc else s.pc + 2#16 }

/-- 41_skips.md (R145 to R147; that an index of 16 or more is not pressed is the spec's own decision D10): Ex9E skips
exactly when V[x] is below 16 and that bit of KEY is 1, and ExA1 exactly when not; nothing but PC changes. -/
def Obligations.KeySkipsTestOneKey : Prop :=
  ∀ (s : State) (x : Reg),
    exec (.skp x) s = .next { s with
      pc := if (s.reg x).toNat < 16 ∧ s.key.getLsbD (s.reg x).toNat = true then s.pc + 2#16 else s.pc } ∧
    exec (.sknp x) s = .next { s with
      pc := if (s.reg x).toNat < 16 ∧ s.key.getLsbD (s.reg x).toNat = true then s.pc else s.pc + 2#16 }

/-- 41_skips.md (R145, the complement property of the source): for all masks and register values exactly one of Ex9E and
ExA1 skips. -/
def Obligations.ExactlyOneKeySkipFires : Prop :=
  ∀ (s : State) (x : Reg), ∃ t u, exec (.skp x) s = .next t ∧ exec (.sknp x) s = .next u ∧
    (t.pc = s.pc + 2#16 ∧ u.pc = s.pc ∨ t.pc = s.pc ∧ u.pc = s.pc + 2#16)

-- ==== loads and ALU ====

/-- R152, R153, R154: 6xkk, 7xkk and 8xy0 write V[x] alone, 7xkk mod 256; no flag is written. -/
def Obligations.LoadsAndAddImmediateWriteOneRegister : Prop :=
  ∀ (s : State) (x y : Reg) (kk : Byte),
    EncodedAs (.ldImm x kk) 0xF000 0x6000 ∧ EncodedAs (.addImm x kk) 0xF000 0x7000 ∧
    EncodedAs (.ldReg x y) 0xF00F 0x8000 ∧
    (∃ t, exec (.ldImm x kk) s = .next t ∧ t.reg x = kk ∧
      (∀ k, k ≠ x → t.reg k = s.reg k) ∧ t = { s with v := t.v }) ∧
    (∃ t, exec (.addImm x kk) s = .next t ∧ (t.reg x).toNat = ((s.reg x).toNat + kk.toNat) % 256 ∧
      (∀ k, k ≠ x → t.reg k = s.reg k) ∧ t = { s with v := t.v }) ∧
    (∃ t, exec (.ldReg x y) s = .next t ∧ t.reg x = s.reg y ∧
      (∀ k, k ≠ x → t.reg k = s.reg k) ∧ t = { s with v := t.v })

/-- R155, R156, R157: 8xy1, 8xy2 and 8xy3 write the bitwise or, and, xor of V[x] and V[y] to V[x] alone; VF is not
reset. -/
def Obligations.LogicWritesBitwiseResults : Prop :=
  ∀ (s : State) (x y : Reg),
    EncodedAs (.orReg x y) 0xF00F 0x8001 ∧ EncodedAs (.andReg x y) 0xF00F 0x8002 ∧
    EncodedAs (.xorReg x y) 0xF00F 0x8003 ∧
    (∃ t, exec (.orReg x y) s = .next t ∧
      (∀ j, (t.reg x).getLsbD j = ((s.reg x).getLsbD j || (s.reg y).getLsbD j)) ∧
      (∀ k, k ≠ x → t.reg k = s.reg k) ∧ t = { s with v := t.v }) ∧
    (∃ t, exec (.andReg x y) s = .next t ∧
      (∀ j, (t.reg x).getLsbD j = ((s.reg x).getLsbD j && (s.reg y).getLsbD j)) ∧
      (∀ k, k ≠ x → t.reg k = s.reg k) ∧ t = { s with v := t.v }) ∧
    (∃ t, exec (.xorReg x y) s = .next t ∧
      (∀ j, (t.reg x).getLsbD j = ((s.reg x).getLsbD j ^^ (s.reg y).getLsbD j)) ∧
      (∀ k, k ≠ x → t.reg k = s.reg k) ∧ t = { s with v := t.v })

/-- 42_alu.md (R158; that both operands are read first and, for x = F, that the sum is written last are the spec's own
decisions D1 and D2): 8xy4 writes the sum mod 256 to V[x] and the carry to VF; with x = F the sum is written last and
stands. -/
def Obligations.AddSetsCarry : Prop :=
  ∀ (s : State) (x y : Reg), ∃ t, exec (.addReg x y) s = .next t ∧
    (t.reg x).toNat = ((s.reg x).toNat + (s.reg y).toNat) % 256 ∧
    (x ≠ 0xF#4 → t.reg 0xF#4 = if (s.reg x).toNat + (s.reg y).toNat > 255 then 0x01#8 else 0x00#8) ∧
    (∀ k, k ≠ x → k ≠ 0xF#4 → t.reg k = s.reg k) ∧ t = { s with v := t.v }

/-- 42_alu.md (R159, R161; decisions D1 and D2 as for 8xy4): 8xy5 writes V[x] - V[y] and 8xy7 writes V[y] - V[x], mod 256,
to V[x]; VF is 1 exactly when the minuend is strictly greater; with x = F the difference is written last and stands. -/
def Obligations.SubtractSetsStrictlyGreater : Prop :=
  ∀ (s : State) (x y : Reg),
    (∃ t, exec (.subReg x y) s = .next t ∧
      (t.reg x).toNat = ((s.reg x).toNat + 256 - (s.reg y).toNat) % 256 ∧
      (x ≠ 0xF#4 → t.reg 0xF#4 = if (s.reg x).toNat > (s.reg y).toNat then 0x01#8 else 0x00#8) ∧
      (∀ k, k ≠ x → k ≠ 0xF#4 → t.reg k = s.reg k) ∧ t = { s with v := t.v }) ∧
    (∃ t, exec (.subnReg x y) s = .next t ∧
      (t.reg x).toNat = ((s.reg y).toNat + 256 - (s.reg x).toNat) % 256 ∧
      (x ≠ 0xF#4 → t.reg 0xF#4 = if (s.reg y).toNat > (s.reg x).toNat then 0x01#8 else 0x00#8) ∧
      (∀ k, k ≠ x → k ≠ 0xF#4 → t.reg k = s.reg k) ∧ t = { s with v := t.v })

/-- 42_alu.md (R160, R162; decisions D1 and D2 as for 8xy4): 8xy6 and 8xyE shift V[x] by one, for every y, and put the bit
shifted out in VF; with x = F the shifted value is written last and stands. -/
def Obligations.ShiftsMoveOneBitIntoVf : Prop :=
  ∀ (s : State) (x y : Reg),
    (∃ t, exec (.shr x y) s = .next t ∧ (t.reg x).toNat = (s.reg x).toNat / 2 ∧
      (x ≠ 0xF#4 → (t.reg 0xF#4).toNat = (s.reg x).toNat % 2) ∧
      (∀ k, k ≠ x → k ≠ 0xF#4 → t.reg k = s.reg k) ∧ t = { s with v := t.v }) ∧
    (∃ t, exec (.shl x y) s = .next t ∧ (t.reg x).toNat = (s.reg x).toNat * 2 % 256 ∧
      (x ≠ 0xF#4 → (t.reg 0xF#4).toNat = (s.reg x).toNat / 128) ∧
      (∀ k, k ≠ x → k ≠ 0xF#4 → t.reg k = s.reg k) ∧ t = { s with v := t.v })

/-- 42_alu.md (R163; that RAND is a free input is the spec's own decision D24): Cxkk writes RAND & kk to V[x] alone, so 0
for kk = 0x00 and RAND for kk = 0xFF. -/
def Obligations.RandomByteIsMasked : Prop :=
  ∀ (s : State) (x : Reg) (kk : Byte), ∃ t, exec (.rnd x kk) s = .next t ∧
    (∀ j, (t.reg x).getLsbD j = (s.rand.getLsbD j && kk.getLsbD j)) ∧
    (kk = 0x00#8 → t.reg x = 0x00#8) ∧ (kk = 0xFF#8 → t.reg x = s.rand) ∧
    (∀ k, k ≠ x → t.reg k = s.reg k) ∧ t = { s with v := t.v }

-- ==== index register and memory transfers ====

/-- R180, R182: Annn puts nnn in I, and Fx29 puts V[x] * 5 there, all 8 bits of V[x] used; nothing else changes. -/
def Obligations.IndexLoadsAreUnmasked : Prop :=
  ∀ (s : State) (nnn : Addr12) (x : Reg),
    EncodedAs (.ldI nnn) 0xF000 0xA000 ∧ EncodedAs (.ldFVx x) 0xF0FF 0xF029 ∧
    (∃ t, exec (.ldI nnn) s = .next t ∧ t.i.toNat = nnn.toNat ∧ t = { s with i := t.i }) ∧
    (∃ t, exec (.ldFVx x) s = .next t ∧ t.i.toNat = (s.reg x).toNat * 5 ∧ t = { s with i := t.i })

/-- 43_index_memory.md (R181; the wrap is the spec's own decision D7): Fx1E adds V[x] to I mod 65536 and writes no flag. -/
def Obligations.AddToIndexWraps : Prop :=
  ∀ (s : State) (x : Reg), ∃ t, exec (.addIVx x) s = .next t ∧
    t.i.toNat = (s.i.toNat + (s.reg x).toNat) % 65536 ∧ t = { s with i := t.i }

/-- 43_index_memory.md (R183; the natural-number addresses and the check before any write are the spec's own decisions D6
and D5): with I + 2 in bounds, Fx33 stores the hundreds, tens and ones of V[x] at I, I + 1, I + 2 and changes no other
byte; otherwise it raises OutOfBounds with the first of the three addresses that fails, and memory is unchanged. -/
def Obligations.BcdStoresThreeDigitsOrRaises : Prop :=
  ∀ (s : State) (x : Reg),
    (Memory.wf s.config.memSize s.mem → s.ea 2 < s.config.memSize → ∃ t, exec (.ldBVx x) s = .next t ∧
      (t.mem.read (s.ea 0)).toNat = (s.reg x).toNat / 100 ∧
      (t.mem.read (s.ea 1)).toNat = (s.reg x).toNat / 10 % 10 ∧
      (t.mem.read (s.ea 2)).toNat = (s.reg x).toNat % 10 ∧
      (∀ a, a < s.ea 0 ∨ s.ea 0 + 3 ≤ a → t.mem.read a = s.mem.read a) ∧ t = { s with mem := t.mem }) ∧
    (∀ k, k ≤ 2 → s.config.memSize ≤ s.ea k → (∀ j, j < k → s.ea j < s.config.memSize) →
      exec (.ldBVx x) s = .next { s with result := .err (.outOfBounds (s.ea k)) })

/-- 43_index_memory.md (R184; decisions D5 and D6 as for Fx33): with I + x in bounds, Fx55 stores V[0]..V[x] at I..I + x
and changes no other byte and not I; otherwise it raises OutOfBounds with the first address that fails, and memory is
unchanged. -/
def Obligations.RegistersAreStoredOrItRaises : Prop :=
  ∀ (s : State) (x : Reg),
    (Memory.wf s.config.memSize s.mem → s.ea x.toNat < s.config.memSize → ∃ t, exec (.ldIVx x) s = .next t ∧
      (∀ k : Reg, k.toNat ≤ x.toNat → t.mem.read (s.ea k.toNat) = s.reg k) ∧
      (∀ a, a < s.ea 0 ∨ s.ea 0 + (x.toNat + 1) ≤ a → t.mem.read a = s.mem.read a) ∧ t = { s with mem := t.mem }) ∧
    (∀ k, k ≤ x.toNat → s.config.memSize ≤ s.ea k → (∀ j, j < k → s.ea j < s.config.memSize) →
      exec (.ldIVx x) s = .next { s with result := .err (.outOfBounds (s.ea k)) })

/-- 43_index_memory.md (R185; decisions D5 and D6 as for Fx33): with I + x in bounds, Fx65 loads V[0]..V[x] from I..I + x
and changes no other register and not I; otherwise it raises OutOfBounds with the first address that fails, and no
register changes. -/
def Obligations.RegistersAreLoadedOrItRaises : Prop :=
  ∀ (s : State) (x : Reg),
    (s.ea x.toNat < s.config.memSize → ∃ t, exec (.ldVxI x) s = .next t ∧
      (∀ k : Reg, k.toNat ≤ x.toNat → t.reg k = s.mem.read (s.ea k.toNat)) ∧
      (∀ k : Reg, x.toNat < k.toNat → t.reg k = s.reg k) ∧ t = { s with v := t.v }) ∧
    (∀ k, k ≤ x.toNat → s.config.memSize ≤ s.ea k → (∀ j, j < k → s.ea j < s.config.memSize) →
      exec (.ldVxI x) s = .next { s with result := .err (.outOfBounds (s.ea k)) })

/-- 43_index_memory.md (R184 and R185 together): a register block that is stored and loaded again from the same I is
restored, whatever the registers held in between. -/
def Obligations.LoadRestoresStoredRegisters : Prop :=
  ∀ (s : State) (x : Reg) (v' : Vector Byte 16), Memory.wf s.config.memSize s.mem →
    s.ea x.toNat < s.config.memSize → ∃ t u, exec (.ldIVx x) s = .next t ∧
      exec (.ldVxI x) { t with v := v' } = .next u ∧ ∀ k : Reg, k.toNat ≤ x.toNat → u.reg k = s.reg k

/-- 20_memory.md section 6 (R87, the spec's own decision D22): bytes stored by Fx55 are what a later fetch at their
address reads. -/
def Obligations.StoredBytesAreFetched : Prop :=
  ∀ (s t : State) (x k : Reg) (p : Word), Memory.wf s.config.memSize s.mem → s.ea x.toNat < s.config.memSize →
    exec (.ldIVx x) s = .next t → k.toNat + 1 ≤ x.toNat → p.toNat = s.ea k.toNat →
    fetch { t with pc := p } = .ok (wordOfBytes (s.reg k) (s.reg (k + 1#4)))

-- ==== display ====

/-- R200: 00E0 zeroes all 256 video bytes and so every pixel, and changes nothing else, VF included. -/
def Obligations.ClearZeroesTheScreen : Prop :=
  EncodedAs .cls 0xFFFF 0x00E0 ∧ ∀ s : State, ∃ t, exec .cls s = .next t ∧ (∀ a, t.vid.read a = 0x00#8) ∧
    (∀ px py, t.vid.pixel px py = false) ∧ t = { s with vid := t.vid }

/-- 44_display.md (R201, R202; which sprite bit is column 0 is the spec's own decision D12): with the whole sprite in
bounds, Dxyn turns over exactly the pixels the wrapped sprite has a 1 bit on, puts 1 in VF when one of them was on and 0
otherwise, and changes nothing else; n = 0 included. -/
def Obligations.DrawXorsTheWrappedSprite : Prop :=
  ∀ (s : State) (x y : Reg) (n : Nibble), Memory.wf 256 s.vid →
    (n = 0x0#4 ∨ s.i.toNat + n.toNat ≤ s.config.memSize) → ∃ t, exec (.drw x y n) s = .next t ∧
      (∀ px py, px < 64 → py < 32 →
        t.vid.pixel px py = (s.vid.pixel px py ^^ s.spriteOn x y n.toNat px py)) ∧
      ((∃ px py, px < 64 ∧ py < 32 ∧ s.spriteOn x y n.toNat px py = true ∧ s.vid.pixel px py = true) →
        t.reg 0xF#4 = 0x01#8) ∧
      ((∀ px py, px < 64 → py < 32 → s.spriteOn x y n.toNat px py = true → s.vid.pixel px py = false) →
        t.reg 0xF#4 = 0x00#8) ∧
      (∀ k, k ≠ 0xF#4 → t.reg k = s.reg k) ∧ t = { s with v := t.v, vid := t.vid }

/-- 44_display.md (R201, R77; the check before any write is the spec's own decision D5): a sprite byte out of bounds raises
OutOfBounds with the lowest failing address, and neither the screen nor VF changes. -/
def Obligations.DrawOutOfBoundsDrawsNothing : Prop :=
  ∀ (s : State) (x y : Reg) (n : Nibble) (k : Nat), k < n.toNat → s.config.memSize ≤ s.ea k →
    (∀ j, j < k → s.ea j < s.config.memSize) →
    exec (.drw x y n) s = .next { s with result := .err (.outOfBounds (s.ea k)) }

/-- 44_display.md (a corner case of R201, read as R201's pseudocode has it; log entry 13): drawing the same sprite twice at
the same place restores every pixel, and the second draw reports a collision exactly when the sprite has a 1 bit on a pixel
that was off before the first. x and y are not F, where the first draw's VF would move the second. -/
def Obligations.DrawingTwiceRestoresTheScreen : Prop :=
  ∀ (s : State) (x y : Reg) (n : Nibble), Memory.wf 256 s.vid → x ≠ 0xF#4 → y ≠ 0xF#4 →
    (n = 0x0#4 ∨ s.i.toNat + n.toNat ≤ s.config.memSize) →
    ∃ t u, exec (.drw x y n) s = .next t ∧ exec (.drw x y n) t = .next u ∧
      (∀ px py, px < 64 → py < 32 → u.vid.pixel px py = s.vid.pixel px py) ∧
      ((∃ px py, px < 64 ∧ py < 32 ∧ s.spriteOn x y n.toNat px py = true ∧ s.vid.pixel px py = false) →
        u.reg 0xF#4 = 0x01#8) ∧
      ((∀ px py, px < 64 → py < 32 → s.spriteOn x y n.toNat px py = true → s.vid.pixel px py = true) →
        u.reg 0xF#4 = 0x00#8)

-- ==== timers and keys ====

/-- R220 whole; R222 and R223 in part (45_timers_keys.md): Fx07 reads DT, Fx15 and Fx18 write DT and ST, and nothing else
changes; in a whole step Fx07 sees DT after the step's tick, and DT or ST ends the step at the value written. -/
def Obligations.TimerAccessComesAfterTheTick : Prop :=
  ∀ (s : State) (x : Reg),
    EncodedAs (.ldVxDt x) 0xF0FF 0xF007 ∧
    (∃ t, exec (.ldVxDt x) s = .next t ∧ t.reg x = s.dt ∧
      (∀ k, k ≠ x → t.reg k = s.reg k) ∧ t = { s with v := t.v }) ∧
    exec (.ldDtVx x) s = .next { s with dt := s.reg x } ∧
    exec (.ldStVx x) s = .next { s with st := s.reg x } ∧
    (∀ w, fetch s = .ok w → decode w = .instr (.ldVxDt x) → ∃ u, step s = .next u ∧
      (u.reg x).toNat = s.dt.toNat - 1 ∧ u.dt = u.reg x) ∧
    (∀ w, fetch s = .ok w → decode w = .instr (.ldDtVx x) → ∃ u, step s = .next u ∧ u.dt = s.reg x) ∧
    (∀ w, fetch s = .ok w → decode w = .instr (.ldStVx x) → ∃ u, step s = .next u ∧ u.st = s.reg x)

/-- 70_reset_and_hazards.md section 3 (R287, derived by the spec): a program that sets DT with Fx15 and reads it with Fx07
in the next step sees one less. -/
def Obligations.DelayTimerReadBackIsOneLess : Prop :=
  ∀ (s t u : State) (x y : Reg) (w w' : Word), fetch s = .ok w → decode w = .instr (.ldDtVx x) → step s = .next t →
    fetch t = .ok w' → decode w' = .instr (.ldVxDt y) → step t = .next u →
    (u.reg y).toNat = (s.reg x).toNat - 1

/-- 45_timers_keys.md (R221; the timers of a blocked step are the parameter of the spec's own decision D9): with a key
down, Fx0A puts the lowest one's index in V[x] and changes nothing else; with none, it steps PC back by 2, changes no
register, and keeps or undoes the tick by WAIT_TIMER_TICK. -/
def Obligations.WaitForKeyTakesTheLowestKeyOrBlocks : Prop :=
  ∀ (s : State) (x : Reg),
    (s.key ≠ 0x0000#16 → ∃ t k, exec (.ldVxK x) s = .next t ∧ (t.reg x).toNat = k ∧ k < 16 ∧
      s.key.getLsbD k = true ∧ (∀ j, j < k → s.key.getLsbD j = false) ∧
      (∀ r, r ≠ x → t.reg r = s.reg r) ∧ t = { s with v := t.v }) ∧
    (s.key = 0x0000#16 → exec (.ldVxK x) s = .next { s with
      pc := s.pc - 2#16
      dt := if s.config.waitTimerTick = true then s.dt else s.dtStart
      st := if s.config.waitTimerTick = true then s.st else s.stStart })

/-- 60_exceptions.md section 5 (R253) and 45_timers_keys.md (R221): a whole step that blocks on Fx0A leaves PC where it
was, so the next step fetches the same instruction, and the timers tick unless WAIT_TIMER_TICK is false (the spec's own
decision D9). -/
def Obligations.ABlockedStepRunsAgain : Prop :=
  ∀ (s : State) (x : Reg) (w : Word), fetch s = .ok w → decode w = .instr (.ldVxK x) → s.key = 0x0000#16 →
    ∃ u, StepReturns s .ok u ∧ fetch u = .ok w ∧ u = { s with
      dt := if s.config.waitTimerTick = true then BitVec.ofNat 8 (s.dt.toNat - 1) else s.dt
      st := if s.config.waitTimerTick = true then BitVec.ofNat 8 (s.st.toNat - 1) else s.st
      result := .ok
      dtStart := s.dt
      stStart := s.st
      inputs := s.inputs.tail
      stepNo := s.stepNo + 1 }
end

