-- ==== Sys2Proof/Laws/Decode.lean ====
section
/-! SUPPORT. The fields of a word as numbers, the fields of a concatenation, and the three masks of the opcode table as
fields (30_encoding.md R101, R102). -/

namespace Sys2Proof

theorem opField_toNat (w : Word) : (opField w).toNat = w.toNat / 4096 := by
  have := w.isLt
  simp only [opField, BitVec.extractLsb'_toNat, Nat.shiftRight_eq_div_pow]; omega

theorem xField_toNat (w : Word) : (xField w).toNat = w.toNat / 256 % 16 := by
  simp only [xField, BitVec.extractLsb'_toNat, Nat.shiftRight_eq_div_pow, Nat.reducePow]

theorem yField_toNat (w : Word) : (yField w).toNat = w.toNat / 16 % 16 := by
  simp only [yField, BitVec.extractLsb'_toNat, Nat.shiftRight_eq_div_pow, Nat.reducePow]

theorem nField_toNat (w : Word) : (nField w).toNat = w.toNat % 16 := by
  simp only [nField, BitVec.extractLsb'_toNat, Nat.shiftRight_zero, Nat.reducePow]

theorem kkField_toNat (w : Word) : (kkField w).toNat = w.toNat % 256 := by
  simp only [kkField, BitVec.extractLsb'_toNat, Nat.shiftRight_zero, Nat.reducePow]

theorem nnnField_toNat (w : Word) : (nnnField w).toNat = w.toNat % 4096 := by
  simp only [nnnField, BitVec.extractLsb'_toNat, Nat.shiftRight_zero, Nat.reducePow]

theorem highByte_toNat (w : Word) : (highByte w).toNat = w.toNat / 256 := by
  have := w.isLt
  simp only [highByte, BitVec.extractLsb'_toNat, Nat.shiftRight_eq_div_pow]; omega

theorem lowByte_toNat (w : Word) : (lowByte w).toNat = w.toNat % 256 := by
  simp only [lowByte, BitVec.extractLsb'_toNat, Nat.shiftRight_zero, Nat.reducePow]

/-- a ++ b is a * 2^k + b (R9). -/
theorem append_toNat {m k : Nat} (a : BitVec m) (b : BitVec k) : (a ++ b).toNat = a.toNat * 2 ^ k + b.toNat := by
  rw [BitVec.toNat_append, ← Nat.shiftLeft_add_eq_or_of_lt b.isLt, Nat.shiftLeft_eq]

theorem wordOfBytes_toNat (b0 b1 : Byte) : (wordOfBytes b0 b1).toNat = b0.toNat * 256 + b1.toNat := append_toNat b0 b1

/-- The two bytes of a word give the word back (20_memory.md R75). -/
theorem wordOfBytes_high_low (w : Word) : wordOfBytes (highByte w) (lowByte w) = w := by
  apply BitVec.eq_of_toNat_eq
  rw [wordOfBytes_toNat, highByte_toNat, lowByte_toNat]; omega

@[simp] theorem opField_nnn (o : Nibble) (nnn : Addr12) : opField (o ++ nnn) = o := by
  have := o.isLt; have := nnn.isLt
  apply BitVec.eq_of_toNat_eq
  rw [opField_toNat]; erw [append_toNat]; omega

@[simp] theorem nnnField_nnn (o : Nibble) (nnn : Addr12) : nnnField (o ++ nnn) = nnn := by
  have := o.isLt; have := nnn.isLt
  apply BitVec.eq_of_toNat_eq
  rw [nnnField_toNat]; erw [append_toNat]; omega

@[simp] theorem opField_xkk (o : Nibble) (x : Reg) (kk : Byte) : opField (o ++ x ++ kk) = o := by
  have := o.isLt; have := x.isLt; have := kk.isLt
  apply BitVec.eq_of_toNat_eq
  rw [opField_toNat]; erw [append_toNat, append_toNat]; omega

@[simp] theorem xField_xkk (o : Nibble) (x : Reg) (kk : Byte) : xField (o ++ x ++ kk) = x := by
  have := o.isLt; have := x.isLt; have := kk.isLt
  apply BitVec.eq_of_toNat_eq
  rw [xField_toNat]; erw [append_toNat, append_toNat]; omega

@[simp] theorem kkField_xkk (o : Nibble) (x : Reg) (kk : Byte) : kkField (o ++ x ++ kk) = kk := by
  have := o.isLt; have := x.isLt; have := kk.isLt
  apply BitVec.eq_of_toNat_eq
  rw [kkField_toNat]; erw [append_toNat, append_toNat]; omega

@[simp] theorem opField_xyn (o : Nibble) (x y : Reg) (n : Nibble) : opField (o ++ x ++ y ++ n) = o := by
  have := o.isLt; have := x.isLt; have := y.isLt; have := n.isLt
  apply BitVec.eq_of_toNat_eq
  rw [opField_toNat]; erw [append_toNat, append_toNat, append_toNat]; omega

@[simp] theorem xField_xyn (o : Nibble) (x y : Reg) (n : Nibble) : xField (o ++ x ++ y ++ n) = x := by
  have := o.isLt; have := x.isLt; have := y.isLt; have := n.isLt
  apply BitVec.eq_of_toNat_eq
  rw [xField_toNat]; erw [append_toNat, append_toNat, append_toNat]; omega

@[simp] theorem yField_xyn (o : Nibble) (x y : Reg) (n : Nibble) : yField (o ++ x ++ y ++ n) = y := by
  have := o.isLt; have := x.isLt; have := y.isLt; have := n.isLt
  apply BitVec.eq_of_toNat_eq
  rw [yField_toNat]; erw [append_toNat, append_toNat, append_toNat]; omega

@[simp] theorem nField_xyn (o : Nibble) (x y : Reg) (n : Nibble) : nField (o ++ x ++ y ++ n) = n := by
  have := o.isLt; have := x.isLt; have := y.isLt; have := n.isLt
  apply BitVec.eq_of_toNat_eq
  rw [nField_toNat]; erw [append_toNat, append_toNat, append_toNat]; omega

/-- The mask 0xF000 keeps the major opcode (R102, R103: NNN, XKK, XYN). -/
theorem and_mask_op (w : Word) : w &&& 0xF000#16 = opField w ++ 0x000#12 := by
  apply BitVec.eq_of_getLsbD_eq
  intro j hj
  refine Eq.trans ?_ (BitVec.getLsbD_append (x := opField w) (y := 0x000#12)).symm
  interval_cases j <;> simp [opField]

/-- The mask 0xF00F keeps the major opcode and n (R102, R103: XY). -/
theorem and_mask_op_n (w : Word) : w &&& 0xF00F#16 = opField w ++ 0x00#8 ++ nField w := by
  apply BitVec.eq_of_getLsbD_eq
  intro j hj
  refine Eq.trans ?_ (BitVec.getLsbD_append (x := opField w ++ 0x00#8) (y := nField w)).symm
  rw [BitVec.getLsbD_append]
  interval_cases j <;> simp [opField, nField]

/-- The mask 0xF0FF keeps the major opcode and kk (R102, R103: X). -/
theorem and_mask_op_kk (w : Word) : w &&& 0xF0FF#16 = opField w ++ 0x0#4 ++ kkField w := by
  apply BitVec.eq_of_getLsbD_eq
  intro j hj
  refine Eq.trans ?_ (BitVec.getLsbD_append (x := opField w ++ 0x0#4) (y := kkField w)).symm
  rw [BitVec.getLsbD_append]
  interval_cases j <;> simp [opField, kkField]

/-- A word is the concatenation of its major opcode and nnn (R101). -/
theorem word_eq_nnn (w : Word) : opField w ++ nnnField w = w := by
  apply BitVec.eq_of_toNat_eq
  erw [append_toNat]; rw [opField_toNat, nnnField_toNat]; omega

/-- A word is the concatenation of its major opcode, x and kk (R101). -/
theorem word_eq_xkk (w : Word) : opField w ++ xField w ++ kkField w = w := by
  apply BitVec.eq_of_toNat_eq
  erw [append_toNat, append_toNat]; rw [opField_toNat, xField_toNat, kkField_toNat]; omega

/-- A word is the concatenation of its four nibbles (R101). -/
theorem word_eq_xyn (w : Word) : opField w ++ xField w ++ yField w ++ nField w = w := by
  apply BitVec.eq_of_toNat_eq
  erw [append_toNat, append_toNat, append_toNat]
  rw [opField_toNat, xField_toNat, yField_toNat, nField_toNat]; omega

/-! The decoder by the major opcode (R105), one lemma per value, so that no later proof unfolds it. -/

theorem decode_op1 (w : Word) (h : opField w = 0x1#4) :
    decode w = .instr (.jp (nnnField w)) := by
  simp only [decode, h]

theorem decode_op2 (w : Word) (h : opField w = 0x2#4) :
    decode w = .instr (.call (nnnField w)) := by
  simp only [decode, h]

theorem decode_op3 (w : Word) (h : opField w = 0x3#4) :
    decode w = .instr (.seImm (xField w) (kkField w)) := by
  simp only [decode, h]

theorem decode_op4 (w : Word) (h : opField w = 0x4#4) :
    decode w = .instr (.sneImm (xField w) (kkField w)) := by
  simp only [decode, h]

theorem decode_op5 (w : Word) (h : opField w = 0x5#4) :
    decode w = if nField w = 0x0#4 then .instr (.seReg (xField w) (yField w)) else .invalid w := by
  simp only [decode, h]

theorem decode_op6 (w : Word) (h : opField w = 0x6#4) :
    decode w = .instr (.ldImm (xField w) (kkField w)) := by
  simp only [decode, h]

theorem decode_op7 (w : Word) (h : opField w = 0x7#4) :
    decode w = .instr (.addImm (xField w) (kkField w)) := by
  simp only [decode, h]

theorem decode_op9 (w : Word) (h : opField w = 0x9#4) :
    decode w = if nField w = 0x0#4 then .instr (.sneReg (xField w) (yField w)) else .invalid w := by
  simp only [decode, h]

theorem decode_opA (w : Word) (h : opField w = 0xA#4) :
    decode w = .instr (.ldI (nnnField w)) := by
  simp only [decode, h]

theorem decode_opB (w : Word) (h : opField w = 0xB#4) :
    decode w = .instr (.jpV0 (nnnField w)) := by
  simp only [decode, h]

theorem decode_opC (w : Word) (h : opField w = 0xC#4) :
    decode w = .instr (.rnd (xField w) (kkField w)) := by
  simp only [decode, h]

theorem decode_opD (w : Word) (h : opField w = 0xD#4) :
    decode w = .instr (.drw (xField w) (yField w) (nField w)) := by
  simp only [decode, h]

theorem decode_op0 (w : Word) (h : opField w = 0x0#4) :
    decode w = if w = 0x00E0#16 then .instr .cls else if w = 0x00EE#16 then .instr .ret else .invalid w := by
  simp only [decode, h]

theorem decode_op8 (w : Word) (h : opField w = 0x8#4) :
    decode w = decodeAlu w := by
  simp only [decode, h]

theorem decode_opE (w : Word) (h : opField w = 0xE#4) :
    decode w = decodeKey w := by
  simp only [decode, h]

theorem decode_opF (w : Word) (h : opField w = 0xF#4) :
    decode w = decodeMisc w := by
  simp only [decode, h]

/-- Every major opcode is one of the sixteen. -/
theorem nibble_cases (o : Nibble) :
    o = 0x0#4 ∨ o = 0x1#4 ∨ o = 0x2#4 ∨ o = 0x3#4 ∨ o = 0x4#4 ∨ o = 0x5#4 ∨ o = 0x6#4 ∨ o = 0x7#4 ∨
    o = 0x8#4 ∨ o = 0x9#4 ∨ o = 0xA#4 ∨ o = 0xB#4 ∨ o = 0xC#4 ∨ o = 0xD#4 ∨ o = 0xE#4 ∨ o = 0xF#4 := by
  revert o; decide

end Sys2Proof
end

