-- ==== Sys2Proof/Laws/Memory.lean ====
section
/-! SUPPORT. The laws of the byte store: read after write, a write leaves every other address alone, every operation
keeps the canonical form, and the same for blocks and pixels. -/

namespace Sys2Proof.Machine

@[simp] theorem Memory.read_nil (a : Nat) : Memory.read [] a = 0x00#8 := rfl

theorem Memory.read_cons (c : Host.Cell) (m : Memory) (a : Nat) :
    Memory.read (c :: m) a = if c.1 = a then c.2 else Memory.read m a := rfl

theorem Memory.read_of_not_listed (m : Memory) (a : Nat) (h : ∀ c ∈ m, c.1 ≠ a) : m.read a = 0x00#8 := by
  induction m with
  | nil => rfl
  | cons c m ih =>
    rw [Memory.read_cons, if_neg (h c (by simp))]
    exact ih fun d hd => h d (by simp [hd])

theorem Memory.read_write_ne (m : Memory) (a k : Nat) (b : Byte) (h : k ≠ a) : (m.write a b).read k = m.read k := by
  induction m with
  | nil => unfold Memory.write; split <;> simp [Memory.read_cons, Ne.symm h]
  | cons c m ih =>
    unfold Memory.write
    split
    · split
      · rfl
      · rw [Memory.read_cons, if_neg (Ne.symm h)]
    · split
      · rename_i hc
        have hk : ¬ c.1 = k := fun e => h (by omega)
        split
        · rw [Memory.read_cons, if_neg hk]
        · rw [Memory.read_cons, Memory.read_cons, if_neg (Ne.symm h), if_neg hk]
      · rw [Memory.read_cons, Memory.read_cons, ih]

theorem Memory.read_write_same (m : Memory) (a : Nat) (b : Byte) (h : m.Pairwise (fun c d => c.1 < d.1)) :
    (m.write a b).read a = b := by
  induction m with
  | nil => unfold Memory.write; split <;> simp_all [Memory.read_cons]
  | cons c m ih =>
    obtain ⟨hc, hm⟩ := List.pairwise_cons.1 h
    unfold Memory.write
    split
    · rename_i hlt
      split
      · rename_i hb
        rw [hb]
        refine Memory.read_of_not_listed _ _ fun d hd => ?_
        rcases List.mem_cons.1 hd with rfl | hd
        · omega
        · have := hc d hd; omega
      · simp [Memory.read_cons]
    · split
      · split
        · rename_i he hb
          rw [hb]
          refine Memory.read_of_not_listed _ _ fun d hd => ?_
          have := hc d hd; omega
        · simp [Memory.read_cons]
      · rw [Memory.read_cons, if_neg (by omega), ih hm]

theorem Memory.mem_write (m : Memory) (a : Nat) (b : Byte) (c : Host.Cell) (h : c ∈ m.write a b) :
    c ∈ m ∨ (c = (a, b) ∧ b ≠ 0x00#8) := by
  induction m with
  | nil => unfold Memory.write at h; split at h <;> simp_all
  | cons d m ih =>
    unfold Memory.write at h
    split at h
    · split at h
      · exact .inl h
      · rcases List.mem_cons.1 h with rfl | h
        · exact .inr ⟨rfl, ‹_›⟩
        · exact .inl h
    · split at h
      · split at h
        · exact .inl (List.mem_cons_of_mem _ h)
        · rcases List.mem_cons.1 h with rfl | h
          · exact .inr ⟨rfl, ‹_›⟩
          · exact .inl (List.mem_cons_of_mem _ h)
      · rcases List.mem_cons.1 h with rfl | h
        · exact .inl (by simp)
        · exact (ih h).imp (List.mem_cons_of_mem _) id

theorem Memory.pairwise_write (m : Memory) (a : Nat) (b : Byte) (h : m.Pairwise (fun c d => c.1 < d.1)) :
    (m.write a b).Pairwise (fun c d => c.1 < d.1) := by
  induction m with
  | nil => unfold Memory.write; split <;> simp
  | cons c m ih =>
    obtain ⟨hc, hm⟩ := List.pairwise_cons.1 h
    unfold Memory.write
    split
    · split
      · exact h
      · refine List.pairwise_cons.2 ⟨fun d hd => ?_, h⟩
        rcases List.mem_cons.1 hd with rfl | hd
        · assumption
        · have := hc d hd; omega
    · split
      · split
        · exact hm
        · refine List.pairwise_cons.2 ⟨fun d hd => ?_, hm⟩
          have := hc d hd; omega
      · refine List.pairwise_cons.2 ⟨fun d hd => ?_, ih hm⟩
        rcases Memory.mem_write m a b d hd with hd | ⟨rfl, -⟩
        · exact hc d hd
        · show c.1 < a; omega

theorem Memory.wf_nil (cap : Nat) : Memory.wf cap [] :=
  ⟨List.Pairwise.nil, fun _ h => nomatch h⟩

theorem Memory.wf_write (cap : Nat) (m : Memory) (a : Nat) (b : Byte) (h : Memory.wf cap m) (ha : a < cap) :
    Memory.wf cap (m.write a b) := by
  refine ⟨Memory.pairwise_write m a b h.1, fun c hc => ?_⟩
  rcases Memory.mem_write m a b c hc with hc | ⟨rfl, hb⟩
  · exact h.2 c hc
  · exact ⟨ha, hb⟩

theorem Memory.pairwise_writeBlock (bytes : List Byte) (m : Memory) (base : Nat)
    (h : m.Pairwise (fun c d => c.1 < d.1)) : (m.writeBlock base bytes).Pairwise (fun c d => c.1 < d.1) := by
  induction bytes generalizing m base with
  | nil => exact h
  | cons b bytes ih => exact ih _ _ (Memory.pairwise_write m base b h)

theorem Memory.wf_writeBlock (cap : Nat) (bytes : List Byte) (m : Memory) (base : Nat) (h : Memory.wf cap m)
    (hb : base + bytes.length ≤ cap) : Memory.wf cap (m.writeBlock base bytes) := by
  induction bytes generalizing m base with
  | nil => exact h
  | cons b bytes ih =>
    simp only [List.length_cons] at hb
    exact ih _ _ (Memory.wf_write cap m base b h (by omega)) (by omega)

/-- A block write leaves every address outside the block alone. -/
theorem Memory.read_writeBlock_outside (bytes : List Byte) (m : Memory) (base a : Nat)
    (h : a < base ∨ base + bytes.length ≤ a) : (m.writeBlock base bytes).read a = m.read a := by
  induction bytes generalizing m base with
  | nil => rfl
  | cons b bytes ih =>
    simp only [List.length_cons] at h
    rw [Memory.writeBlock, ih _ _ (by omega), Memory.read_write_ne _ _ _ _ (by omega)]

/-- A block write puts byte k at base + k. -/
theorem Memory.read_writeBlock_inside (bytes : List Byte) (m : Memory) (base k : Nat) (hk : k < bytes.length)
    (h : m.Pairwise (fun c d => c.1 < d.1)) : (m.writeBlock base bytes).read (base + k) = bytes[k] := by
  induction bytes generalizing m base k with
  | nil => simp at hk
  | cons b bytes ih =>
    rw [Memory.writeBlock]
    cases k with
    | zero =>
      rw [Memory.read_writeBlock_outside _ _ _ _ (by omega)]
      exact Memory.read_write_same m base b h
    | succ k =>
      have := ih (m.write base b) (base + 1) k (by simpa using hk) (Memory.pairwise_write m base b h)
      rw [show base + (k + 1) = base + 1 + k by omega, this]
      rfl

@[simp] theorem Memory.length_readBlock (m : Memory) (base n : Nat) : (m.readBlock base n).length = n := by
  simp [Memory.readBlock]

theorem Memory.getElem_readBlock (m : Memory) (base n k : Nat) (h : k < (m.readBlock base n).length) :
    (m.readBlock base n)[k] = m.read (base + k) := by
  simp [Memory.readBlock]

/-- Two distinct pixels of the 64 columns never share a byte and a bit (R80). -/
theorem pixel_place_injective (px py qx qy : Nat) (ha : pixelAddress px py = pixelAddress qx qy)
    (hb : pixelBit px = pixelBit qx) (hpx : px < 64) (hqx : qx < 64) : px = qx ∧ py = qy := by
  unfold pixelAddress at ha
  unfold pixelBit at hb
  omega

theorem pixelAddress_lt (px py : Nat) (hx : px < 64) (hy : py < 32) : pixelAddress px py < 256 := by
  unfold pixelAddress; omega

theorem getLsbD_xor_bit (b : Byte) (k j : Nat) (hk : k < 8) (hj : j < 8) :
    (b ^^^ (0x01#8 <<< k)).getLsbD j = (b.getLsbD j ^^ decide (j = k)) := by
  have : (0x01#8 <<< k).getLsbD j = decide (j = k) := by
    interval_cases k <;> interval_cases j <;> decide
  rw [BitVec.getLsbD_xor, this]

/-- Flipping a pixel flips that pixel (R80). -/
theorem Memory.pixel_flipPixel_same (m : Memory) (px py : Nat) (h : m.Pairwise (fun c d => c.1 < d.1)) :
    (m.flipPixel px py).pixel px py = !m.pixel px py := by
  unfold Memory.pixel Memory.flipPixel
  rw [Memory.read_write_same _ _ _ h, getLsbD_xor_bit _ _ _ (by unfold pixelBit; omega) (by unfold pixelBit; omega)]
  simp

/-- Flipping a pixel leaves every other pixel alone (R80). -/
theorem Memory.pixel_flipPixel_ne (m : Memory) (px py qx qy : Nat) (h : m.Pairwise (fun c d => c.1 < d.1))
    (hpx : px < 64) (hqx : qx < 64) (hne : ¬ (qx = px ∧ qy = py)) :
    (m.flipPixel px py).pixel qx qy = m.pixel qx qy := by
  unfold Memory.pixel Memory.flipPixel
  by_cases ha : pixelAddress qx qy = pixelAddress px py
  · have hb : pixelBit qx ≠ pixelBit px := fun hb => hne (pixel_place_injective qx qy px py ha hb hqx hpx)
    rw [ha, Memory.read_write_same _ _ _ h,
      getLsbD_xor_bit _ _ _ (by unfold pixelBit; omega) (by unfold pixelBit; omega)]
    simp [hb]
  · rw [Memory.read_write_ne _ _ _ _ ha]

theorem Memory.pairwise_flipPixel (m : Memory) (px py : Nat) (h : m.Pairwise (fun c d => c.1 < d.1)) :
    (m.flipPixel px py).Pairwise (fun c d => c.1 < d.1) := Memory.pairwise_write _ _ _ h

theorem Memory.wf_flipPixel (m : Memory) (px py : Nat) (h : Memory.wf 256 m) (hx : px < 64) (hy : py < 32) :
    Memory.wf 256 (m.flipPixel px py) := Memory.wf_write _ _ _ _ h (pixelAddress_lt px py hx hy)

end Sys2Proof.Machine
end

