-- ==== Sys2Proof/Laws/Operands.lean ====
section
/-! SUPPORT. The operand forms: what the bounds check answers, what a zero-extension is worth, and what the key operands
are. -/

namespace Sys2Proof.Machine

/-- The bounds check passes exactly when there is nothing to access or the last address is below MEM_SIZE (R72, R77). -/
theorem State.firstOutOfBounds_eq_none (s : State) (base n : Nat) :
    s.firstOutOfBounds base n = none ↔ n = 0 ∨ base + n ≤ s.config.memSize := by
  simp only [State.firstOutOfBounds, List.find?_eq_none, List.mem_map, List.mem_range, decide_eq_true_eq]
  constructor
  · intro h
    rcases Nat.eq_zero_or_pos n with rfl | hn
    · exact .inl rfl
    · have := h (base + (n - 1)) ⟨n - 1, by omega, rfl⟩
      omega
  · rintro h a ⟨k, hk, rfl⟩
    omega

/-- The bounds check reports an accessed address at or above MEM_SIZE, with every accessed address below it in bounds
(R77). -/
theorem State.firstOutOfBounds_eq_some (s : State) (base n a : Nat) (h : s.firstOutOfBounds base n = some a) :
    s.config.memSize ≤ a ∧ base ≤ a ∧ a < base + n ∧ ∀ k, base ≤ k → k < a → k < s.config.memSize := by
  obtain ⟨hp, i, hi, rfl, hmin⟩ := List.find?_eq_some_iff_getElem.1 h
  simp only [List.length_map, List.length_range] at hi
  simp only [List.getElem_map, List.getElem_range, decide_eq_true_eq] at hp ⊢
  refine ⟨hp, by omega, by omega, fun k hk hka => ?_⟩
  have := hmin (k - base) (by omega)
  simp only [List.getElem_map, List.getElem_range, Bool.not_eq_true', decide_eq_false_iff_not] at this
  omega

/-- The address the bounds check reports, in closed form: MEM_SIZE, or base where base is already above it (R77). -/
theorem State.firstOutOfBounds_eq (s : State) (base n : Nat) :
    s.firstOutOfBounds base n =
      if n = 0 ∨ base + n ≤ s.config.memSize then none else some (max base s.config.memSize) := by
  split
  · exact (s.firstOutOfBounds_eq_none base n).2 ‹_›
  · rename_i h
    cases hf : s.firstOutOfBounds base n with
    | none => exact absurd ((s.firstOutOfBounds_eq_none base n).1 hf) h
    | some a =>
      obtain ⟨h1, h2, h3, h4⟩ := s.firstOutOfBounds_eq_some base n a hf
      have h5 := h4 (a - 1)
      congr 1
      rcases Nat.lt_or_ge base s.config.memSize with hb | hb <;> omega

@[simp] theorem zextAddr_toNat (nnn : Addr12) : (zextAddr nnn).toNat = nnn.toNat := by
  simp only [zextAddr, BitVec.toNat_setWidth]; omega

@[simp] theorem zextByte_toNat (b : Byte) : (zextByte b).toNat = b.toNat := by
  simp only [zextByte, BitVec.toNat_setWidth]; omega

@[simp] theorem spriteAddress_toNat (a : Byte) : (spriteAddress a).toNat = a.toNat * 5 := by
  simp only [spriteAddress, BitVec.toNat_ofNat]; omega

/-- A key index is below 16, or it is not pressed (R145). -/
theorem pressed_of_ge (key : KeyMask) (v : Byte) (h : 16 ≤ v.toNat) : pressed key v = false := by
  simp [pressed, Nat.not_lt.2 h]

theorem pressed_of_lt (key : KeyMask) (v : Byte) (h : v.toNat < 16) : pressed key v = key.getLsbD v.toNat := by
  simp [pressed, h]

theorem mem_keysDown (key : KeyMask) (k : Nat) : k ∈ keysDown key ↔ k < 16 ∧ key.getLsbD k = true := by
  simp [keysDown]

/-- Where some key is down, the lowest key is down and no lower one is (R221). -/
theorem lowestKey_spec (key : KeyMask) (h : key ≠ 0x0000#16) :
    ∃ k, k < 16 ∧ (lowestKey key).toNat = k ∧ key.getLsbD k = true ∧ ∀ j < k, key.getLsbD j = false := by
  cases hk : keysDown key with
  | nil =>
    refine absurd (BitVec.eq_of_getLsbD_eq fun j hj => ?_) h
    have : j ∉ keysDown key := by simp [hk]
    simp only [mem_keysDown, not_and, Bool.not_eq_true] at this
    simpa using this hj
  | cons k rest =>
    obtain ⟨hk16, hbit⟩ := (mem_keysDown key k).1 (by simp [hk])
    refine ⟨k, hk16, ?_, hbit, fun j hj => ?_⟩
    · simp only [lowestKey, hk, List.headD_cons, BitVec.toNat_ofNat]; omega
    · have hs : (keysDown key).Pairwise (· < ·) := List.Pairwise.filter _ List.pairwise_lt_range
      rw [hk] at hs
      have hnot : j ∉ keysDown key := by
        rw [hk, List.mem_cons, not_or]
        exact ⟨by omega, fun hm => by have := (List.pairwise_cons.1 hs).1 j hm; omega⟩
      rw [mem_keysDown, not_and, Bool.not_eq_true] at hnot
      exact hnot (by omega)

@[simp] theorem length_regsUpTo (s : State) (x : Reg) : (s.regsUpTo x).length = x.toNat + 1 := by
  have := x.isLt
  simp only [State.regsUpTo, List.length_take, Vector.length_toList]; omega

/-- Element k of the registers up to x is V[k] (R184). -/
theorem getElem_regsUpTo (s : State) (x : Reg) (k : Nat) (h : k < (s.regsUpTo x).length) :
    (s.regsUpTo x)[k] = s.reg (BitVec.ofNat 4 k) := by
  have hx := x.isLt
  rw [length_regsUpTo] at h
  have hk : k % 2 ^ 4 = k := Nat.mod_eq_of_lt (by omega)
  simp only [State.regsUpTo, List.getElem_take, State.reg, BitVec.toNat_ofNat, hk]
  rfl

end Sys2Proof.Machine
end

