-- ==== Sys2Proof/Laws/State.lean ====
section
/-! SUPPORT. One lemma per field per update of State, so that no later proof unfolds a record update. -/

namespace Sys2Proof.Machine

variable (s : State)

-- setReg
@[simp] theorem State.setReg_v (x : Reg) (b : Byte) : (s.setReg x b).v = s.v.set x.toNat b x.isLt := rfl
@[simp] theorem State.setReg_i (x : Reg) (b : Byte) : (s.setReg x b).i = s.i := rfl
@[simp] theorem State.setReg_pc (x : Reg) (b : Byte) : (s.setReg x b).pc = s.pc := rfl
@[simp] theorem State.setReg_sp (x : Reg) (b : Byte) : (s.setReg x b).sp = s.sp := rfl
@[simp] theorem State.setReg_stack (x : Reg) (b : Byte) : (s.setReg x b).stack = s.stack := rfl
@[simp] theorem State.setReg_dt (x : Reg) (b : Byte) : (s.setReg x b).dt = s.dt := rfl
@[simp] theorem State.setReg_st (x : Reg) (b : Byte) : (s.setReg x b).st = s.st := rfl
@[simp] theorem State.setReg_mem (x : Reg) (b : Byte) : (s.setReg x b).mem = s.mem := rfl
@[simp] theorem State.setReg_vid (x : Reg) (b : Byte) : (s.setReg x b).vid = s.vid := rfl
@[simp] theorem State.setReg_config (x : Reg) (b : Byte) : (s.setReg x b).config = s.config := rfl
@[simp] theorem State.setReg_result (x : Reg) (b : Byte) : (s.setReg x b).result = s.result := rfl
@[simp] theorem State.setReg_dtStart (x : Reg) (b : Byte) : (s.setReg x b).dtStart = s.dtStart := rfl
@[simp] theorem State.setReg_stStart (x : Reg) (b : Byte) : (s.setReg x b).stStart = s.stStart := rfl
@[simp] theorem State.setReg_inputs (x : Reg) (b : Byte) : (s.setReg x b).inputs = s.inputs := rfl
@[simp] theorem State.setReg_stepNo (x : Reg) (b : Byte) : (s.setReg x b).stepNo = s.stepNo := rfl

-- jump
@[simp] theorem State.jump_v (w : Word) : (s.jump w).v = s.v := rfl
@[simp] theorem State.jump_i (w : Word) : (s.jump w).i = s.i := rfl
@[simp] theorem State.jump_pc (w : Word) : (s.jump w).pc = w := rfl
@[simp] theorem State.jump_sp (w : Word) : (s.jump w).sp = s.sp := rfl
@[simp] theorem State.jump_stack (w : Word) : (s.jump w).stack = s.stack := rfl
@[simp] theorem State.jump_dt (w : Word) : (s.jump w).dt = s.dt := rfl
@[simp] theorem State.jump_st (w : Word) : (s.jump w).st = s.st := rfl
@[simp] theorem State.jump_mem (w : Word) : (s.jump w).mem = s.mem := rfl
@[simp] theorem State.jump_vid (w : Word) : (s.jump w).vid = s.vid := rfl
@[simp] theorem State.jump_config (w : Word) : (s.jump w).config = s.config := rfl
@[simp] theorem State.jump_result (w : Word) : (s.jump w).result = s.result := rfl
@[simp] theorem State.jump_dtStart (w : Word) : (s.jump w).dtStart = s.dtStart := rfl
@[simp] theorem State.jump_stStart (w : Word) : (s.jump w).stStart = s.stStart := rfl
@[simp] theorem State.jump_inputs (w : Word) : (s.jump w).inputs = s.inputs := rfl
@[simp] theorem State.jump_stepNo (w : Word) : (s.jump w).stepNo = s.stepNo := rfl

-- skipIf
@[simp] theorem State.skipIf_v (c : Bool) : (s.skipIf c).v = s.v := by cases c <;> rfl
@[simp] theorem State.skipIf_i (c : Bool) : (s.skipIf c).i = s.i := by cases c <;> rfl
@[simp] theorem State.skipIf_pc (c : Bool) : (s.skipIf c).pc = if c then s.pc + 2#16 else s.pc := by cases c <;> rfl
@[simp] theorem State.skipIf_sp (c : Bool) : (s.skipIf c).sp = s.sp := by cases c <;> rfl
@[simp] theorem State.skipIf_stack (c : Bool) : (s.skipIf c).stack = s.stack := by cases c <;> rfl
@[simp] theorem State.skipIf_dt (c : Bool) : (s.skipIf c).dt = s.dt := by cases c <;> rfl
@[simp] theorem State.skipIf_st (c : Bool) : (s.skipIf c).st = s.st := by cases c <;> rfl
@[simp] theorem State.skipIf_mem (c : Bool) : (s.skipIf c).mem = s.mem := by cases c <;> rfl
@[simp] theorem State.skipIf_vid (c : Bool) : (s.skipIf c).vid = s.vid := by cases c <;> rfl
@[simp] theorem State.skipIf_config (c : Bool) : (s.skipIf c).config = s.config := by cases c <;> rfl
@[simp] theorem State.skipIf_result (c : Bool) : (s.skipIf c).result = s.result := by cases c <;> rfl
@[simp] theorem State.skipIf_dtStart (c : Bool) : (s.skipIf c).dtStart = s.dtStart := by cases c <;> rfl
@[simp] theorem State.skipIf_stStart (c : Bool) : (s.skipIf c).stStart = s.stStart := by cases c <;> rfl
@[simp] theorem State.skipIf_inputs (c : Bool) : (s.skipIf c).inputs = s.inputs := by cases c <;> rfl
@[simp] theorem State.skipIf_stepNo (c : Bool) : (s.skipIf c).stepNo = s.stepNo := by cases c <;> rfl

-- start
@[simp] theorem State.start_v : (s.start).v = s.v := rfl
@[simp] theorem State.start_i : (s.start).i = s.i := rfl
@[simp] theorem State.start_pc : (s.start).pc = s.pc := rfl
@[simp] theorem State.start_sp : (s.start).sp = s.sp := rfl
@[simp] theorem State.start_stack : (s.start).stack = s.stack := rfl
@[simp] theorem State.start_dt : (s.start).dt = s.dt := rfl
@[simp] theorem State.start_st : (s.start).st = s.st := rfl
@[simp] theorem State.start_mem : (s.start).mem = s.mem := rfl
@[simp] theorem State.start_vid : (s.start).vid = s.vid := rfl
@[simp] theorem State.start_config : (s.start).config = s.config := rfl
@[simp] theorem State.start_result : (s.start).result = .ok := rfl
@[simp] theorem State.start_dtStart : (s.start).dtStart = s.dt := rfl
@[simp] theorem State.start_stStart : (s.start).stStart = s.st := rfl
@[simp] theorem State.start_inputs : (s.start).inputs = s.inputs := rfl
@[simp] theorem State.start_stepNo : (s.start).stepNo = s.stepNo := rfl

-- advance
@[simp] theorem State.advance_v : (s.advance).v = s.v := rfl
@[simp] theorem State.advance_i : (s.advance).i = s.i := rfl
@[simp] theorem State.advance_pc : (s.advance).pc = s.pc + 2#16 := rfl
@[simp] theorem State.advance_sp : (s.advance).sp = s.sp := rfl
@[simp] theorem State.advance_stack : (s.advance).stack = s.stack := rfl
@[simp] theorem State.advance_dt : (s.advance).dt = s.dt := rfl
@[simp] theorem State.advance_st : (s.advance).st = s.st := rfl
@[simp] theorem State.advance_mem : (s.advance).mem = s.mem := rfl
@[simp] theorem State.advance_vid : (s.advance).vid = s.vid := rfl
@[simp] theorem State.advance_config : (s.advance).config = s.config := rfl
@[simp] theorem State.advance_result : (s.advance).result = s.result := rfl
@[simp] theorem State.advance_dtStart : (s.advance).dtStart = s.dtStart := rfl
@[simp] theorem State.advance_stStart : (s.advance).stStart = s.stStart := rfl
@[simp] theorem State.advance_inputs : (s.advance).inputs = s.inputs := rfl
@[simp] theorem State.advance_stepNo : (s.advance).stepNo = s.stepNo := rfl

-- tick
@[simp] theorem State.tick_v : (s.tick).v = s.v := rfl
@[simp] theorem State.tick_i : (s.tick).i = s.i := rfl
@[simp] theorem State.tick_pc : (s.tick).pc = s.pc := rfl
@[simp] theorem State.tick_sp : (s.tick).sp = s.sp := rfl
@[simp] theorem State.tick_stack : (s.tick).stack = s.stack := rfl
@[simp] theorem State.tick_dt : (s.tick).dt = tickByte s.dt := rfl
@[simp] theorem State.tick_st : (s.tick).st = tickByte s.st := rfl
@[simp] theorem State.tick_mem : (s.tick).mem = s.mem := rfl
@[simp] theorem State.tick_vid : (s.tick).vid = s.vid := rfl
@[simp] theorem State.tick_config : (s.tick).config = s.config := rfl
@[simp] theorem State.tick_result : (s.tick).result = s.result := rfl
@[simp] theorem State.tick_dtStart : (s.tick).dtStart = s.dtStart := rfl
@[simp] theorem State.tick_stStart : (s.tick).stStart = s.stStart := rfl
@[simp] theorem State.tick_inputs : (s.tick).inputs = s.inputs := rfl
@[simp] theorem State.tick_stepNo : (s.tick).stepNo = s.stepNo := rfl

-- enter
@[simp] theorem State.enter_v : (s.enter).v = s.v := rfl
@[simp] theorem State.enter_i : (s.enter).i = s.i := rfl
@[simp] theorem State.enter_pc : (s.enter).pc = s.pc + 2#16 := rfl
@[simp] theorem State.enter_sp : (s.enter).sp = s.sp := rfl
@[simp] theorem State.enter_stack : (s.enter).stack = s.stack := rfl
@[simp] theorem State.enter_dt : (s.enter).dt = tickByte s.dt := rfl
@[simp] theorem State.enter_st : (s.enter).st = tickByte s.st := rfl
@[simp] theorem State.enter_mem : (s.enter).mem = s.mem := rfl
@[simp] theorem State.enter_vid : (s.enter).vid = s.vid := rfl
@[simp] theorem State.enter_config : (s.enter).config = s.config := rfl
@[simp] theorem State.enter_result : (s.enter).result = .ok := rfl
@[simp] theorem State.enter_dtStart : (s.enter).dtStart = s.dt := rfl
@[simp] theorem State.enter_stStart : (s.enter).stStart = s.st := rfl
@[simp] theorem State.enter_inputs : (s.enter).inputs = s.inputs := rfl
@[simp] theorem State.enter_stepNo : (s.enter).stepNo = s.stepNo := rfl

-- finish
@[simp] theorem State.finish_v : (s.finish).v = s.v := rfl
@[simp] theorem State.finish_i : (s.finish).i = s.i := rfl
@[simp] theorem State.finish_pc : (s.finish).pc = s.pc := rfl
@[simp] theorem State.finish_sp : (s.finish).sp = s.sp := rfl
@[simp] theorem State.finish_stack : (s.finish).stack = s.stack := rfl
@[simp] theorem State.finish_dt : (s.finish).dt = s.dt := rfl
@[simp] theorem State.finish_st : (s.finish).st = s.st := rfl
@[simp] theorem State.finish_mem : (s.finish).mem = s.mem := rfl
@[simp] theorem State.finish_vid : (s.finish).vid = s.vid := rfl
@[simp] theorem State.finish_config : (s.finish).config = s.config := rfl
@[simp] theorem State.finish_result : (s.finish).result = s.result := rfl
@[simp] theorem State.finish_dtStart : (s.finish).dtStart = s.dtStart := rfl
@[simp] theorem State.finish_stStart : (s.finish).stStart = s.stStart := rfl
@[simp] theorem State.finish_inputs : (s.finish).inputs = s.inputs.tail := rfl
@[simp] theorem State.finish_stepNo : (s.finish).stepNo = s.stepNo + 1 := rfl

-- undoTickUnlessKept
@[simp] theorem State.undoTickUnlessKept_v : (s.undoTickUnlessKept).v = s.v := by
  unfold State.undoTickUnlessKept; split <;> rfl
@[simp] theorem State.undoTickUnlessKept_i : (s.undoTickUnlessKept).i = s.i := by
  unfold State.undoTickUnlessKept; split <;> rfl
@[simp] theorem State.undoTickUnlessKept_pc : (s.undoTickUnlessKept).pc = s.pc := by
  unfold State.undoTickUnlessKept; split <;> rfl
@[simp] theorem State.undoTickUnlessKept_sp : (s.undoTickUnlessKept).sp = s.sp := by
  unfold State.undoTickUnlessKept; split <;> rfl
@[simp] theorem State.undoTickUnlessKept_stack : (s.undoTickUnlessKept).stack = s.stack := by
  unfold State.undoTickUnlessKept; split <;> rfl
@[simp] theorem State.undoTickUnlessKept_dt : (s.undoTickUnlessKept).dt = if s.config.waitTimerTick then s.dt else s.dtStart := by
  unfold State.undoTickUnlessKept; split <;> rfl
@[simp] theorem State.undoTickUnlessKept_st : (s.undoTickUnlessKept).st = if s.config.waitTimerTick then s.st else s.stStart := by
  unfold State.undoTickUnlessKept; split <;> rfl
@[simp] theorem State.undoTickUnlessKept_mem : (s.undoTickUnlessKept).mem = s.mem := by
  unfold State.undoTickUnlessKept; split <;> rfl
@[simp] theorem State.undoTickUnlessKept_vid : (s.undoTickUnlessKept).vid = s.vid := by
  unfold State.undoTickUnlessKept; split <;> rfl
@[simp] theorem State.undoTickUnlessKept_config : (s.undoTickUnlessKept).config = s.config := by
  unfold State.undoTickUnlessKept; split <;> rfl
@[simp] theorem State.undoTickUnlessKept_result : (s.undoTickUnlessKept).result = s.result := by
  unfold State.undoTickUnlessKept; split <;> rfl
@[simp] theorem State.undoTickUnlessKept_dtStart : (s.undoTickUnlessKept).dtStart = s.dtStart := by
  unfold State.undoTickUnlessKept; split <;> rfl
@[simp] theorem State.undoTickUnlessKept_stStart : (s.undoTickUnlessKept).stStart = s.stStart := by
  unfold State.undoTickUnlessKept; split <;> rfl
@[simp] theorem State.undoTickUnlessKept_inputs : (s.undoTickUnlessKept).inputs = s.inputs := by
  unfold State.undoTickUnlessKept; split <;> rfl
@[simp] theorem State.undoTickUnlessKept_stepNo : (s.undoTickUnlessKept).stepNo = s.stepNo := by
  unfold State.undoTickUnlessKept; split <;> rfl

end Sys2Proof.Machine
end

