-- ==== Sys2Proof/Laws/Ops.lean ====
section
/-! SUPPORT. One lemma per shared operation that says what it does: register writes, the stack, the bounds-checked access,
the block load and the draw. -/

namespace Sys2Proof.Machine

/-- Every register number is one of 0..15. -/
theorem reg_toNat_inj {x k : Reg} (h : x.toNat = k.toNat) : x = k := BitVec.eq_of_toNat_eq h

@[simp] theorem State.reg_setReg_same (s : State) (x : Reg) (b : Byte) : (s.setReg x b).reg x = b := by
  simp [State.reg]

theorem State.reg_setReg_ne (s : State) (x k : Reg) (b : Byte) (h : k ≠ x) : (s.setReg x b).reg k = s.reg k := by
  have : x.toNat ≠ k.toNat := fun e => h (reg_toNat_inj e).symm
  simp only [State.reg, State.setReg_v]
  exact Vector.getElem_set_ne _ _ this

theorem State.reg_setReg (s : State) (x k : Reg) (b : Byte) :
    (s.setReg x b).reg k = if k = x then b else s.reg k := by
  split
  · rename_i h; rw [h, State.reg_setReg_same]
  · exact State.reg_setReg_ne s x k b ‹_›

/-- VF takes the flag, then V[x] takes the result: with x = F the result stands (R151). -/
theorem State.reg_setFlagThenReg (s : State) (f : Byte) (x k : Reg) (b : Byte) :
    (s.setFlagThenReg f x b).reg k = if k = x then b else if k = regVF then f else s.reg k := by
  simp only [State.setFlagThenReg, State.reg_setReg]

/-- The registers read the same in two states with the same register file. -/
theorem State.reg_congr {s t : State} (h : t.v = s.v) (k : Reg) : t.reg k = s.reg k := by
  rw [State.reg, State.reg]; exact congrArg (fun v : Vector Byte 16 => v[k.toNat]) h

/-- A skip changes PC alone (R140). -/
theorem State.skipIf_eq (s : State) (c : Bool) :
    s.skipIf c = { s with pc := if c then s.pc + 2#16 else s.pc } := by
  cases c <;> rfl

/-- A blocked Fx0A changes PC, and the timers where WAIT_TIMER_TICK is false (R221). -/
theorem State.blockOnKey_eq (s : State) :
    s.blockOnKey = { s with
      pc := s.pc - 2#16
      dt := if s.config.waitTimerTick then s.dt else s.dtStart
      st := if s.config.waitTimerTick then s.st else s.stStart } := by
  unfold State.blockOnKey State.undoTickUnlessKept
  cases s.config.waitTimerTick <;> simp

/-- A flag-and-result write changes nothing but registers (R151). -/
theorem State.setFlagThenReg_eq (s : State) (f : Byte) (x : Reg) (b : Byte) :
    s.setFlagThenReg f x b = { s with v := (s.setFlagThenReg f x b).v } := rfl

/-- push answers exactly below depth 16, and then the return address lies on top (R133, R37). -/
theorem State.push_of_lt (s : State) (w : Word) (h : s.sp.val < 16) :
    s.push w = some { s with stack := s.stack.set s.sp.val w h, sp := ⟨s.sp.val + 1, Nat.succ_lt_succ h⟩ } := by
  simp [State.push, h]

theorem State.push_of_full (s : State) (w : Word) (h : s.sp.val = 16) : s.push w = none := by
  simp [State.push, h]

theorem State.pop_of_zero (s : State) (h : s.sp.val = 0) : s.pop = none := by
  obtain ⟨v, i, pc, sp, stack, dt, st, mem, vid, config, result, dtStart, stStart, inputs, stepNo⟩ := s
  obtain ⟨k, hk⟩ := sp
  simp only at h
  subst h
  rfl

/-- pop answers exactly above depth 0, and leaves the slot's value (R131, R37). -/
theorem State.pop_of_pos (s : State) (h : 0 < s.sp.val) :
    s.pop = some (s.stack[s.sp.val - 1]'(by omega), { s with sp := ⟨s.sp.val - 1, by omega⟩ }) := by
  obtain ⟨v, i, pc, sp, stack, dt, st, mem, vid, config, result, dtStart, stStart, inputs, stepNo⟩ := s
  obtain ⟨k, hk⟩ := sp
  cases k with
  | zero => exact absurd h (Nat.lt_irrefl 0)
  | succ k => rfl

/-- Raising an error answers the same state with the error as the result (R242, R243). -/
theorem raise_eq (e : StepError) (s : State) : raise e s = .next { s with result := .err e } := rfl

/-- A checked access whose addresses are all in bounds answers t (R77). -/
theorem checked_of_inBounds (s t : State) (base n : Nat) (h : n = 0 ∨ base + n ≤ s.config.memSize) :
    checked s base n t = .next t := by
  simp [checked, (s.firstOutOfBounds_eq_none base n).2 h]

/-- A checked access with an address out of bounds raises OutOfBounds with the lowest one (R77). -/
theorem checked_of_outOfBounds (s t : State) (base n : Nat) (h : ¬ (n = 0 ∨ base + n ≤ s.config.memSize)) :
    checked s base n t = raise (.outOfBounds (max base s.config.memSize)) s := by
  simp [checked, State.firstOutOfBounds_eq, h]

/-- What a checked access can answer (R77). -/
theorem checked_cases {s t u : State} {base n : Nat} (h : checked s base n t = .next u) :
    ((n = 0 ∨ base + n ≤ s.config.memSize) ∧ u = t) ∨
    (¬ (n = 0 ∨ base + n ≤ s.config.memSize) ∧
      u = { s with result := .err (.outOfBounds (max base s.config.memSize)) }) := by
  by_cases hb : n = 0 ∨ base + n ≤ s.config.memSize
  · rw [checked_of_inBounds s t base n hb] at h
    exact .inl ⟨hb, by simpa using h.symm⟩
  · rw [checked_of_outOfBounds s t base n hb, raise_eq] at h
    exact .inr ⟨hb, by simpa using h.symm⟩

theorem State.loadRegs_succ (s : State) (n : Nat) :
    s.loadRegs (n + 1) = (s.loadRegs n).setReg (BitVec.ofNat 4 n) (s.mem.read (s.ea n)) := by
  simp [State.loadRegs, List.range_succ]

/-- The block load writes V[0]..V[n-1] from the bytes at I, I + 1, ... and no other register (R185). -/
theorem State.reg_loadRegs (s : State) (n : Nat) (hn : n ≤ 16) (k : Reg) :
    (s.loadRegs n).reg k = if k.toNat < n then s.mem.read (s.ea k.toNat) else s.reg k := by
  induction n with
  | zero => simp [State.loadRegs]
  | succ n ih =>
    rw [State.loadRegs_succ, State.reg_setReg, ih (by omega)]
    have hnat : (BitVec.ofNat 4 n).toNat = n := by simp only [BitVec.toNat_ofNat]; omega
    by_cases hk : k = BitVec.ofNat 4 n
    · subst hk
      simp only [hnat, if_pos, Nat.lt_succ_self]
    · have : k.toNat ≠ n := fun e => hk (reg_toNat_inj (e.trans hnat.symm))
      rw [if_neg hk]
      by_cases hlt : k.toNat < n
      · rw [if_pos hlt, if_pos (by omega)]
      · rw [if_neg hlt, if_neg (by omega)]

/-- The block load changes nothing but registers (R185). -/
theorem State.loadRegs_eq (s : State) (n : Nat) : s.loadRegs n = { s with v := (s.loadRegs n).v } := by
  induction n with
  | zero => rfl
  | succ n ih =>
    rw [State.loadRegs_succ]
    generalize s.loadRegs n = t at ih
    rw [ih]
    rfl

theorem Canvas.plot_wf (cv : Canvas) (px py : Nat) (h : Memory.wf 256 cv.vid) (hx : px < 64) (hy : py < 32) :
    Memory.wf 256 (cv.plot px py).vid := Memory.wf_flipPixel _ _ _ h hx hy

/-- Drawing keeps any property of the canvas that plotting a pixel of the screen keeps (R201: every coordinate wraps). -/
theorem Canvas.plotSprite_keeps (P : Canvas → Prop)
    (hP : ∀ cv px py, px < 64 → py < 32 → P cv → P (cv.plot px py)) (X Y : Nat) (rows : List Byte) (cv : Canvas)
    (h : P cv) : P (cv.plotSprite X Y rows) := by
  have hrow : ∀ (cs : List Nat) (r : Nat) (row : Byte) (cv : Canvas), P cv →
      P (cs.foldl (fun cv c => if row.getLsbD (7 - c) then cv.plot ((X + c) % 64) ((Y + r) % 32) else cv) cv) := by
    intro cs r row
    induction cs with
    | nil => exact fun cv h => h
    | cons c cs ih =>
      intro cv h
      rw [List.foldl_cons]
      refine ih _ ?_
      split
      · exact hP _ _ _ (Nat.mod_lt _ (by decide)) (Nat.mod_lt _ (by decide)) h
      · exact h
  have hall : ∀ (ps : List (Byte × Nat)) (cv : Canvas), P cv → P (ps.foldl (fun cv p => cv.plotRow X Y p.2 p.1) cv) := by
    intro ps
    induction ps with
    | nil => exact fun cv h => h
    | cons p ps ih => exact fun cv h => ih _ (hrow _ _ _ _ h)
  exact hall _ _ h

/-- Drawing keeps video memory canonical (R79). -/
theorem Canvas.plotSprite_wf (cv : Canvas) (X Y : Nat) (rows : List Byte) (h : Memory.wf 256 cv.vid) :
    Memory.wf 256 (cv.plotSprite X Y rows).vid :=
  Canvas.plotSprite_keeps (fun cv => Memory.wf 256 cv.vid) (fun cv px py hx hy h => cv.plot_wf px py h hx hy) X Y rows cv h

end Sys2Proof.Machine
end

