-- ==== Sys2Proof/Laws/Cycle.lean ====
section
/-! SUPPORT. The cycle: when the fetch succeeds and with which word, what a step can do, and what placing a word does. -/

namespace Sys2Proof.Machine

/-- A fetch whose two addresses are in bounds reads them big-endian (R114, R75). -/
theorem fetch_of_inBounds (s : State) (h : s.pc.toNat + 2 ≤ s.config.memSize) :
    fetch s = .ok (wordOfBytes (s.mem.read s.pc.toNat) (s.mem.read (s.pc.toNat + 1))) := by
  simp [fetch, (s.firstOutOfBounds_eq_none s.pc.toNat 2).2 (.inr h)]

/-- A fetch with an address out of bounds fails with the lower of the failing ones (R114, R77). -/
theorem fetch_of_outOfBounds (s : State) (h : s.config.memSize < s.pc.toNat + 2) :
    fetch s = .error (max s.pc.toNat s.config.memSize) := by
  have : ¬ ((2 : Nat) = 0 ∨ s.pc.toNat + 2 ≤ s.config.memSize) := by omega
  rw [fetch, State.firstOutOfBounds_eq, if_neg this]

/-- What a fetch can answer. -/
theorem fetch_eq_ok_iff (s : State) (w : Word) :
    fetch s = .ok w ↔ s.pc.toNat + 2 ≤ s.config.memSize ∧
      w = wordOfBytes (s.mem.read s.pc.toNat) (s.mem.read (s.pc.toNat + 1)) := by
  by_cases h : s.pc.toNat + 2 ≤ s.config.memSize
  · rw [fetch_of_inBounds s h]
    simp [h, eq_comm]
  · rw [fetch_of_outOfBounds s (by omega)]
    simp [h]

@[simp] theorem finishOutcome_next (t : State) : finishOutcome (.next t) = .next t.finish := rfl

theorem finishOutcome_eq_next_iff (o : Outcome) (u : State) :
    finishOutcome o = .next u ↔ ∃ t, o = .next t ∧ u = t.finish := by
  cases o <;> simp [finishOutcome, eq_comm]

theorem step_of_fetch_error (s : State) (a : Nat) (h : fetch s = .error a) :
    step s = .next (State.finish { s.start with result := .err (.outOfBounds a) }) := by
  rw [step, h]; rfl

theorem step_of_invalid (s : State) (ir w : Word) (h : fetch s = .ok ir) (hd : decode ir = .invalid w) :
    step s = .next (State.finish { s.enter with result := .err (.invalidInstruction w s.pc) }) := by
  rw [step, h]; simp only [hd]; rfl

theorem step_of_instr (s : State) (ir : Word) (i : Instr) (h : fetch s = .ok ir) (hd : decode ir = .instr i) :
    step s = finishOutcome (exec i s.enter) := by
  rw [step, h]; simp only [hd]

/-- Everything a step that answers a next state can have done (R113): a fetch error, an invalid word, or one
instruction. -/
theorem step_cases {s u : State} (h : step s = .next u) :
    (∃ a, fetch s = .error a ∧ u = State.finish { s.start with result := .err (.outOfBounds a) }) ∨
    (∃ ir w, fetch s = .ok ir ∧ decode ir = .invalid w ∧
      u = State.finish { s.enter with result := .err (.invalidInstruction w s.pc) }) ∨
    (∃ ir i t, fetch s = .ok ir ∧ decode ir = .instr i ∧ exec i s.enter = .next t ∧ u = t.finish) := by
  cases hf : fetch s with
  | error a =>
    rw [step_of_fetch_error s a hf] at h
    exact .inl ⟨a, rfl, by simpa using h.symm⟩
  | ok ir =>
    cases hd : decode ir with
    | invalid w =>
      rw [step_of_invalid s ir w hf hd] at h
      exact .inr (.inl ⟨ir, w, rfl, hd, by simpa using h.symm⟩)
    | instr i =>
      rw [step_of_instr s ir i hf hd, finishOutcome_eq_next_iff] at h
      obtain ⟨t, ht, hu⟩ := h
      exact .inr (.inr ⟨ir, i, t, rfl, hd, ht, hu⟩)

/-- After placing a word at PC, where both addresses are in bounds, the fetch reads that word. -/
theorem fetch_placeWord (s : State) (w : Word) (h : s.pc.toNat + 2 ≤ s.config.memSize)
    (hm : s.mem.Pairwise (fun c d => c.1 < d.1)) : fetch (s.placeWord w) = .ok w := by
  rw [fetch_eq_ok_iff]
  refine ⟨h, ?_⟩
  simp only [State.placeWord]
  rw [Memory.read_write_ne _ _ _ _ (by omega), Memory.read_write_same _ _ _ hm,
    Memory.read_write_same _ _ _ (Memory.pairwise_write _ _ _ hm), wordOfBytes_high_low]

/-- The timer tick on naturals: one less, and 0 stays 0 (R248). -/
theorem tickByte_toNat (t : Byte) : (tickByte t).toNat = t.toNat - 1 := by
  unfold tickByte
  split
  · rename_i h; subst h; rfl
  · rename_i h
    have : t.toNat ≠ 0 := fun e => h (BitVec.eq_of_toNat_eq (by simpa using e))
    have := t.isLt
    simp only [BitVec.toNat_sub, BitVec.toNat_ofNat]
    omega

end Sys2Proof.Machine
end

