-- ==== Sys2Proof/Laws/Draw.lean ====
section
/-! SUPPORT. The draw as a list of pixels: a sprite is the pixels of its 1 bits, wrapped onto the screen; no pixel occurs
twice; plotting pixels that do not repeat turns over exactly those pixels (44_display.md R201). -/

namespace Sys2Proof.Machine

/-- The pixels of row r of a sprite at (X, Y): one for each 1 bit, wrapped on both axes (R201). -/
def rowPixels (X Y r : Nat) (row : Byte) : List (Nat × Nat) :=
  ((List.range 8).filter (fun c => row.getLsbD (7 - c))).map (fun c => ((X + c) % 64, (Y + r) % 32))

/-- The pixels of a sprite at (X, Y), row after row (R201). -/
def spritePixels (X Y : Nat) (rows : List Byte) : List (Nat × Nat) :=
  rows.zipIdx.flatMap (fun p => rowPixels X Y p.2 p.1)

theorem Canvas.plotRow_eq (cv : Canvas) (X Y r : Nat) (row : Byte) :
    cv.plotRow X Y r row = (rowPixels X Y r row).foldl (fun cv q => cv.plot q.1 q.2) cv := by
  simp only [Canvas.plotRow, rowPixels, List.foldl_map, List.foldl_filter]

/-- Drawing a sprite is plotting its pixels in turn. -/
theorem Canvas.plotSprite_eq (cv : Canvas) (X Y : Nat) (rows : List Byte) :
    cv.plotSprite X Y rows = (spritePixels X Y rows).foldl (fun cv q => cv.plot q.1 q.2) cv := by
  simp only [Canvas.plotSprite, spritePixels, List.foldl_flatMap, Canvas.plotRow_eq]

theorem mem_rowPixels (X Y r : Nat) (row : Byte) (q : Nat × Nat) :
    q ∈ rowPixels X Y r row ↔ ∃ c, c < 8 ∧ row.getLsbD (7 - c) = true ∧ q = ((X + c) % 64, (Y + r) % 32) := by
  simp only [rowPixels, List.mem_map, List.mem_filter, List.mem_range]
  exact ⟨fun ⟨c, ⟨h1, h2⟩, h3⟩ => ⟨c, h1, h2, h3.symm⟩, fun ⟨c, h1, h2, h3⟩ => ⟨c, ⟨h1, h2⟩, h3.symm⟩⟩

/-- A pixel belongs to a sprite when some 1 bit of some row wraps onto it. -/
theorem mem_spritePixels (X Y : Nat) (rows : List Byte) (q : Nat × Nat) :
    q ∈ spritePixels X Y rows ↔ ∃ r c, ∃ h : r < rows.length, c < 8 ∧ rows[r].getLsbD (7 - c) = true ∧
      q = ((X + c) % 64, (Y + r) % 32) := by
  simp only [spritePixels, List.mem_flatMap, mem_rowPixels]
  constructor
  · rintro ⟨⟨row, r⟩, hp, c, hc, hb, hq⟩
    obtain ⟨-, hr, hrow⟩ := List.mem_zipIdx hp
    exact ⟨r, c, by simpa using hr, hc, by simpa [hrow] using hb, hq⟩
  · rintro ⟨r, c, hr, hc, hb, hq⟩
    exact ⟨(rows[r], r), List.mem_zipIdx_iff_getElem?.2 (by simp [hr]), c, hc, hb, hq⟩

theorem spritePixels_in_screen (X Y : Nat) (rows : List Byte) (q : Nat × Nat) (h : q ∈ spritePixels X Y rows) :
    q.1 < 64 ∧ q.2 < 32 := by
  obtain ⟨r, c, -, -, -, rfl⟩ := (mem_spritePixels X Y rows q).1 h
  exact ⟨Nat.mod_lt _ (by decide), Nat.mod_lt _ (by decide)⟩

theorem nodup_rowPixels (X Y r : Nat) (row : Byte) : (rowPixels X Y r row).Nodup := by
  refine List.Nodup.map_on (fun a ha b hb h => ?_) (List.Nodup.filter _ List.nodup_range)
  simp only [List.mem_filter, List.mem_range] at ha hb
  simp only [Prod.mk.injEq] at h
  omega

/-- No pixel is hit twice in one draw of at most 32 rows (R201). -/
theorem nodup_spritePixels (X Y : Nat) (rows : List Byte) (hlen : rows.length ≤ 32) :
    (spritePixels X Y rows).Nodup := by
  rw [spritePixels, List.nodup_flatMap]
  refine ⟨fun p _ => nodup_rowPixels X Y p.2 p.1, ?_⟩
  refine List.pairwise_iff_getElem.2 fun i j hi hj hij => ?_
  simp only [List.length_zipIdx] at hi hj
  intro q hq hq'
  obtain ⟨c, -, -, h1⟩ := (mem_rowPixels _ _ _ _ _).1 hq
  obtain ⟨c', -, -, h2⟩ := (mem_rowPixels _ _ _ _ _).1 hq'
  simp only [List.getElem_zipIdx] at h1 h2
  rw [h1] at h2
  simp only [Prod.mk.injEq] at h2
  omega

/-- Plotting pixels of the screen that do not repeat turns over exactly those pixels, and hits when one of them was on
(R201, R202). -/
theorem foldl_plot (qs : List (Nat × Nat)) (cv : Canvas) (hnd : qs.Nodup) (hin : ∀ q ∈ qs, q.1 < 64 ∧ q.2 < 32)
    (hs : cv.vid.Pairwise (fun c d => c.1 < d.1)) :
    (∀ px py, px < 64 → (qs.foldl (fun cv q => cv.plot q.1 q.2) cv).vid.pixel px py =
      (cv.vid.pixel px py ^^ decide ((px, py) ∈ qs))) ∧
    ((qs.foldl (fun cv q => cv.plot q.1 q.2) cv).hit = true ↔
      cv.hit = true ∨ ∃ q ∈ qs, cv.vid.pixel q.1 q.2 = true) := by
  induction qs generalizing cv with
  | nil => simp
  | cons q qs ih =>
    obtain ⟨hq, hnd'⟩ := List.nodup_cons.1 hnd
    obtain ⟨hq1, hq2⟩ := hin q (by simp)
    have hs' : (cv.plot q.1 q.2).vid.Pairwise (fun c d => c.1 < d.1) := Memory.pairwise_flipPixel _ _ _ hs
    obtain ⟨hp, hh⟩ := ih (cv.plot q.1 q.2) hnd' (fun p hp => hin p (by simp [hp])) hs'
    have hother : ∀ px py, px < 64 → (px, py) ≠ q →
        (cv.plot q.1 q.2).vid.pixel px py = cv.vid.pixel px py := fun px py hx hne =>
      Memory.pixel_flipPixel_ne _ _ _ _ _ hs hq1 hx fun e => hne (Prod.ext e.1 e.2)
    rw [List.foldl_cons]
    constructor
    · intro px py hx
      rw [hp px py hx]
      by_cases he : (px, py) = q
      · have h1 : (cv.plot q.1 q.2).vid.pixel px py = !cv.vid.pixel px py := by
          rw [← he]; exact Memory.pixel_flipPixel_same _ _ _ hs
        rw [h1, he]
        simp [hq]
      · rw [hother px py hx he]
        simp [he]
    · rw [hh]
      simp only [Canvas.plot, Bool.or_eq_true, List.mem_cons, exists_eq_or_imp]
      have : (∃ a ∈ qs, (cv.vid.flipPixel q.1 q.2).pixel a.1 a.2 = true) ↔
          ∃ a ∈ qs, cv.vid.pixel a.1 a.2 = true := by
        refine exists_congr fun a => and_congr_right fun ha => ?_
        have := hother a.1 a.2 (hin a (by simp [ha])).1 (fun e => hq (e ▸ ha))
        simp only [Canvas.plot] at this
        rw [this]
      rw [this, or_assoc]

end Sys2Proof.Machine
end

