-- ==== Sys2Proof/Laws/PerInstr.lean ====
section
/-! SUPPORT. Per instruction: its word fits its own row of the opcode table, and the row is in the table (30_encoding.md
R102, R105). -/

/-- The row of the instruction stands in the opcode table and its mask and match accept the instruction's word (R102). -/
def Sys2Proof.Laws.OwnRow.Statement (i : Sys2Proof.Instr) : Prop :=
  i.row ∈ Sys2Proof.opcodeTable ∧ i.row.fits (Sys2Proof.encode i) = true

namespace Sys2Proof.Laws.OwnRow

open Sys2Proof

/-- Every instruction's row stands in the opcode table (R108). -/
theorem row_mem (i : Instr) : i.row ∈ opcodeTable := by
  cases i <;> simp [opcodeTable, opcodeTableLow, opcodeTableAlu, opcodeTableHigh, Instr.row]

/-- A row with mask 0xF000 accepts a word whose major opcode is the row's. -/
theorem fits_op (r : Row) (w : Word) (o : Nibble) (hm : r.mask = 0xF000#16) (hp : r.pattern = o ++ 0x000#12)
    (ho : opField w = o) : r.fits w = true := by
  rw [Row.fits, hm, hp, and_mask_op, ho]; exact beq_self_eq_true _

/-- A row with mask 0xF00F accepts a word whose major opcode and n are the row's. -/
theorem fits_op_n (r : Row) (w : Word) (o n : Nibble) (hm : r.mask = 0xF00F#16) (hp : r.pattern = o ++ 0x00#8 ++ n)
    (ho : opField w = o) (hn : nField w = n) : r.fits w = true := by
  rw [Row.fits, hm, hp, and_mask_op_n, ho, hn]; exact beq_self_eq_true _

/-- A row with mask 0xF0FF accepts a word whose major opcode and kk are the row's. -/
theorem fits_op_kk (r : Row) (w : Word) (o : Nibble) (kk : Byte) (hm : r.mask = 0xF0FF#16)
    (hp : r.pattern = o ++ 0x0#4 ++ kk) (ho : opField w = o) (hk : kkField w = kk) : r.fits w = true := by
  rw [Row.fits, hm, hp, and_mask_op_kk, ho, hk]; exact beq_self_eq_true _

/-! One lemma per constructor of Instr. -/

theorem cls : Statement .cls :=
  ⟨row_mem _, by decide⟩

theorem ret : Statement .ret :=
  ⟨row_mem _, by decide⟩

theorem jp (nnn : Addr12) : Statement (.jp nnn) :=
  ⟨row_mem _, fits_op _ _ 0x1#4 rfl rfl (opField_nnn _ _)⟩

theorem call (nnn : Addr12) : Statement (.call nnn) :=
  ⟨row_mem _, fits_op _ _ 0x2#4 rfl rfl (opField_nnn _ _)⟩

theorem seImm (x : Reg) (kk : Byte) : Statement (.seImm x kk) :=
  ⟨row_mem _, fits_op _ _ 0x3#4 rfl rfl (opField_xkk _ _ _)⟩

theorem sneImm (x : Reg) (kk : Byte) : Statement (.sneImm x kk) :=
  ⟨row_mem _, fits_op _ _ 0x4#4 rfl rfl (opField_xkk _ _ _)⟩

theorem seReg (x : Reg) (y : Reg) : Statement (.seReg x y) :=
  ⟨row_mem _, fits_op_n _ _ 0x5#4 0x0#4 rfl rfl (opField_xyn _ _ _ _) (nField_xyn _ _ _ _)⟩

theorem ldImm (x : Reg) (kk : Byte) : Statement (.ldImm x kk) :=
  ⟨row_mem _, fits_op _ _ 0x6#4 rfl rfl (opField_xkk _ _ _)⟩

theorem addImm (x : Reg) (kk : Byte) : Statement (.addImm x kk) :=
  ⟨row_mem _, fits_op _ _ 0x7#4 rfl rfl (opField_xkk _ _ _)⟩

theorem ldReg (x : Reg) (y : Reg) : Statement (.ldReg x y) :=
  ⟨row_mem _, fits_op_n _ _ 0x8#4 0x0#4 rfl rfl (opField_xyn _ _ _ _) (nField_xyn _ _ _ _)⟩

theorem orReg (x : Reg) (y : Reg) : Statement (.orReg x y) :=
  ⟨row_mem _, fits_op_n _ _ 0x8#4 0x1#4 rfl rfl (opField_xyn _ _ _ _) (nField_xyn _ _ _ _)⟩

theorem andReg (x : Reg) (y : Reg) : Statement (.andReg x y) :=
  ⟨row_mem _, fits_op_n _ _ 0x8#4 0x2#4 rfl rfl (opField_xyn _ _ _ _) (nField_xyn _ _ _ _)⟩

theorem xorReg (x : Reg) (y : Reg) : Statement (.xorReg x y) :=
  ⟨row_mem _, fits_op_n _ _ 0x8#4 0x3#4 rfl rfl (opField_xyn _ _ _ _) (nField_xyn _ _ _ _)⟩

theorem addReg (x : Reg) (y : Reg) : Statement (.addReg x y) :=
  ⟨row_mem _, fits_op_n _ _ 0x8#4 0x4#4 rfl rfl (opField_xyn _ _ _ _) (nField_xyn _ _ _ _)⟩

theorem subReg (x : Reg) (y : Reg) : Statement (.subReg x y) :=
  ⟨row_mem _, fits_op_n _ _ 0x8#4 0x5#4 rfl rfl (opField_xyn _ _ _ _) (nField_xyn _ _ _ _)⟩

theorem shr (x : Reg) (y : Reg) : Statement (.shr x y) :=
  ⟨row_mem _, fits_op_n _ _ 0x8#4 0x6#4 rfl rfl (opField_xyn _ _ _ _) (nField_xyn _ _ _ _)⟩

theorem subnReg (x : Reg) (y : Reg) : Statement (.subnReg x y) :=
  ⟨row_mem _, fits_op_n _ _ 0x8#4 0x7#4 rfl rfl (opField_xyn _ _ _ _) (nField_xyn _ _ _ _)⟩

theorem shl (x : Reg) (y : Reg) : Statement (.shl x y) :=
  ⟨row_mem _, fits_op_n _ _ 0x8#4 0xE#4 rfl rfl (opField_xyn _ _ _ _) (nField_xyn _ _ _ _)⟩

theorem sneReg (x : Reg) (y : Reg) : Statement (.sneReg x y) :=
  ⟨row_mem _, fits_op_n _ _ 0x9#4 0x0#4 rfl rfl (opField_xyn _ _ _ _) (nField_xyn _ _ _ _)⟩

theorem ldI (nnn : Addr12) : Statement (.ldI nnn) :=
  ⟨row_mem _, fits_op _ _ 0xA#4 rfl rfl (opField_nnn _ _)⟩

theorem jpV0 (nnn : Addr12) : Statement (.jpV0 nnn) :=
  ⟨row_mem _, fits_op _ _ 0xB#4 rfl rfl (opField_nnn _ _)⟩

theorem rnd (x : Reg) (kk : Byte) : Statement (.rnd x kk) :=
  ⟨row_mem _, fits_op _ _ 0xC#4 rfl rfl (opField_xkk _ _ _)⟩

theorem drw (x : Reg) (y : Reg) (n : Nibble) : Statement (.drw x y n) :=
  ⟨row_mem _, fits_op _ _ 0xD#4 rfl rfl (opField_xyn _ _ _ _)⟩

theorem skp (x : Reg) : Statement (.skp x) :=
  ⟨row_mem _, fits_op_kk _ _ 0xE#4 0x9E#8 rfl rfl (opField_xkk _ _ _) (kkField_xkk _ _ _)⟩

theorem sknp (x : Reg) : Statement (.sknp x) :=
  ⟨row_mem _, fits_op_kk _ _ 0xE#4 0xA1#8 rfl rfl (opField_xkk _ _ _) (kkField_xkk _ _ _)⟩

theorem ldVxDt (x : Reg) : Statement (.ldVxDt x) :=
  ⟨row_mem _, fits_op_kk _ _ 0xF#4 0x07#8 rfl rfl (opField_xkk _ _ _) (kkField_xkk _ _ _)⟩

theorem ldVxK (x : Reg) : Statement (.ldVxK x) :=
  ⟨row_mem _, fits_op_kk _ _ 0xF#4 0x0A#8 rfl rfl (opField_xkk _ _ _) (kkField_xkk _ _ _)⟩

theorem ldDtVx (x : Reg) : Statement (.ldDtVx x) :=
  ⟨row_mem _, fits_op_kk _ _ 0xF#4 0x15#8 rfl rfl (opField_xkk _ _ _) (kkField_xkk _ _ _)⟩

theorem ldStVx (x : Reg) : Statement (.ldStVx x) :=
  ⟨row_mem _, fits_op_kk _ _ 0xF#4 0x18#8 rfl rfl (opField_xkk _ _ _) (kkField_xkk _ _ _)⟩

theorem addIVx (x : Reg) : Statement (.addIVx x) :=
  ⟨row_mem _, fits_op_kk _ _ 0xF#4 0x1E#8 rfl rfl (opField_xkk _ _ _) (kkField_xkk _ _ _)⟩

theorem ldFVx (x : Reg) : Statement (.ldFVx x) :=
  ⟨row_mem _, fits_op_kk _ _ 0xF#4 0x29#8 rfl rfl (opField_xkk _ _ _) (kkField_xkk _ _ _)⟩

theorem ldBVx (x : Reg) : Statement (.ldBVx x) :=
  ⟨row_mem _, fits_op_kk _ _ 0xF#4 0x33#8 rfl rfl (opField_xkk _ _ _) (kkField_xkk _ _ _)⟩

theorem ldIVx (x : Reg) : Statement (.ldIVx x) :=
  ⟨row_mem _, fits_op_kk _ _ 0xF#4 0x55#8 rfl rfl (opField_xkk _ _ _) (kkField_xkk _ _ _)⟩

theorem ldVxI (x : Reg) : Statement (.ldVxI x) :=
  ⟨row_mem _, fits_op_kk _ _ 0xF#4 0x65#8 rfl rfl (opField_xkk _ _ _) (kkField_xkk _ _ _)⟩

end Sys2Proof.Laws.OwnRow
end

