-- ==== Sys2Proof/Tests/Slice0.lean ====
section
/-! SUPPORT. Tests, each a small theorem. Expected results come from spec/: the formats of 30_encoding.md R103 and R105 for
the decoder, and the vectors of 95_test_vectors.md for the steps (each comment names its vector). The witnesses at the end
show, for every statement with hypotheses, a concrete state and operands that meet them. -/

namespace Sys2Proof.Tests

open Sys2Proof Sys2Proof.Machine

-- ==== helpers ====

/-- The state after reset with a word placed at 0x200, no key down, and RAND = 0x00. -/
def prog (w : Nat) : State := { State.reset.withFetchWord 16 w with inputs := [{ key := 0x0000, rand := 0x00 }] }

/-- The state with PC at p and a word placed there. -/
def progAt (p : Word) (w : Nat) : State :=
  { State.withFetchWord { State.reset with pc := p } 16 w with inputs := [{ key := 0x0000, rand := 0x00 }] }

/-- The state with one key mask and one random byte lined up. -/
def given (key : KeyMask) (rand : Byte) (s : State) : State := { s with inputs := [{ key := key, rand := rand }] }

/-- The state with a byte of main memory written. -/
def poke (a : Nat) (b : Byte) (s : State) : State := { s with mem := s.mem.write a b }

/-- The state with WAIT_TIMER_TICK = false. -/
def noWaitTick (s : State) : State := { s with config := { memSize := 4096, waitTimerTick := false } }

/-- The state one step leaves. -/
def ran (s : State) : State :=
  match step s with
  | .next t => t
  | .fault _ => s
  | .refused _ => s

/-- The state one instruction leaves. -/
def did (i : Instr) (s : State) : State :=
  match exec i s with
  | .next t => t
  | .fault _ => s
  | .refused _ => s

-- ==== the checks refuse what is ill-formed (00_scope.md R7, 20_memory.md R81, 70_reset_and_hazards.md R284) ====

theorem test_config_too_small : ¬ Config.WellFormed { memSize := 0x201, waitTimerTick := true } := by decide

theorem test_config_too_large : ¬ Config.WellFormed { memSize := 65537, waitTimerTick := true } := by decide

theorem test_config_bounds_are_well_formed :
    Config.WellFormed { memSize := 0x202, waitTimerTick := false } ∧
    Config.WellFormed { memSize := 65536, waitTimerTick := true } ∧ Config.default.WellFormed := by decide

theorem test_short_font_is_refused :
    ¬ FontWellFormed (List.replicate 79 0xF0#8) ∧ State.boot Config.default (List.replicate 79 0xF0#8) [] = none := by decide

theorem test_default_font_is_well_formed : FontWellFormed defaultFont := by decide

theorem test_oversize_rom_is_refused :
    ¬ RomFits { memSize := 0x202, waitTimerTick := true } [0x12, 0x00, 0x00] ∧
    State.boot { memSize := 0x202, waitTimerTick := true } defaultFont [0x12, 0x00, 0x00] = none := by decide

-- ==== decoding: one word for every constructor, its bits written out from the format (R103, R105) ====

theorem test_decode_fix :
    decode 0b0000000011100000#16 = .instr .cls ∧
    decode 0b0000000011101110#16 = .instr .ret := by decide

/-- Format NNN, nnn = 0xA5C. -/
theorem test_decode_nnn :
    decode 0b0001101001011100#16 = .instr (.jp 0xA5C) ∧
    decode 0b0010101001011100#16 = .instr (.call 0xA5C) ∧
    decode 0b1010101001011100#16 = .instr (.ldI 0xA5C) ∧
    decode 0b1011101001011100#16 = .instr (.jpV0 0xA5C) := by decide

/-- Format XKK, x = 0xA, kk = 0x5C. -/
theorem test_decode_xkk :
    decode 0b0011101001011100#16 = .instr (.seImm 0xA 0x5C) ∧
    decode 0b0100101001011100#16 = .instr (.sneImm 0xA 0x5C) ∧
    decode 0b0110101001011100#16 = .instr (.ldImm 0xA 0x5C) ∧
    decode 0b0111101001011100#16 = .instr (.addImm 0xA 0x5C) ∧
    decode 0b1100101001011100#16 = .instr (.rnd 0xA 0x5C) := by decide

/-- Format XY, x = 0xA, y = 0x5. -/
theorem test_decode_xy_skips :
    decode 0b0101101001010000#16 = .instr (.seReg 0xA 0x5) ∧
    decode 0b1001101001010000#16 = .instr (.sneReg 0xA 0x5) := by decide

theorem test_decode_xy_alu :
    decode 0b1000101001010000#16 = .instr (.ldReg 0xA 0x5) ∧
    decode 0b1000101001010001#16 = .instr (.orReg 0xA 0x5) ∧
    decode 0b1000101001010010#16 = .instr (.andReg 0xA 0x5) ∧
    decode 0b1000101001010011#16 = .instr (.xorReg 0xA 0x5) ∧
    decode 0b1000101001010100#16 = .instr (.addReg 0xA 0x5) ∧
    decode 0b1000101001010101#16 = .instr (.subReg 0xA 0x5) ∧
    decode 0b1000101001010110#16 = .instr (.shr 0xA 0x5) ∧
    decode 0b1000101001010111#16 = .instr (.subnReg 0xA 0x5) ∧
    decode 0b1000101001011110#16 = .instr (.shl 0xA 0x5) := by decide

/-- Format XYN, x = 0xA, y = 0x5, n = 0xC. -/
theorem test_decode_xyn : decode 0b1101101001011100#16 = .instr (.drw 0xA 0x5 0xC) := by decide

/-- Format X, x = 0xA. -/
theorem test_decode_x_keys :
    decode 0b1110101010011110#16 = .instr (.skp 0xA) ∧
    decode 0b1110101010100001#16 = .instr (.sknp 0xA) := by decide

theorem test_decode_x_misc :
    decode 0b1111101000000111#16 = .instr (.ldVxDt 0xA) ∧
    decode 0b1111101000001010#16 = .instr (.ldVxK 0xA) ∧
    decode 0b1111101000010101#16 = .instr (.ldDtVx 0xA) ∧
    decode 0b1111101000011000#16 = .instr (.ldStVx 0xA) ∧
    decode 0b1111101000011110#16 = .instr (.addIVx 0xA) ∧
    decode 0b1111101000101001#16 = .instr (.ldFVx 0xA) ∧
    decode 0b1111101000110011#16 = .instr (.ldBVx 0xA) ∧
    decode 0b1111101001010101#16 = .instr (.ldIVx 0xA) ∧
    decode 0b1111101001100101#16 = .instr (.ldVxI 0xA) := by decide

/-- T5: words that match no row (R107). -/
theorem test_decode_invalid :
    decode 0x0000#16 = .invalid 0x0000#16 ∧
    decode 0x0FFF#16 = .invalid 0x0FFF#16 ∧
    decode 0x5121#16 = .invalid 0x5121#16 ∧
    decode 0x800F#16 = .invalid 0x800F#16 ∧
    decode 0x8008#16 = .invalid 0x8008#16 ∧
    decode 0x9121#16 = .invalid 0x9121#16 ∧
    decode 0xE000#16 = .invalid 0xE000#16 ∧
    decode 0xE19F#16 = .invalid 0xE19F#16 ∧
    decode 0xF000#16 = .invalid 0xF000#16 ∧
    decode 0xF0FF#16 = .invalid 0xF0FF#16 ∧
    decode 0xFFFF#16 = .invalid 0xFFFF#16 := by decide

/-- The table has 34 rows (R108). -/
theorem test_table_has_34_rows : opcodeTable.length = 34 := by decide

/-- A word numbered as the table numbers it, and a short one whose missing bits are 0. -/
theorem test_decodeTableWord :
    decodeTableWord 16 0x7102 = some (.addImm 0x1 0x02) ∧ decodeTableWord 16 0x0123 = none ∧
    decodeTableWord 8 0x71E0 = some .cls := by decide

-- ==== the cycle ====

/-- T2, T3: a fetch that fails leaves PC and the timers. -/
theorem test_fetch_at_the_top_fails :
    (ran { State.reset with pc := 0xFFF, dt := 5 }).result = .err (.outOfBounds 0x1000) ∧
    (ran { State.reset with pc := 0xFFF, dt := 5 }).pc = 0xFFF ∧
    (ran { State.reset with pc := 0x1000, dt := 5 }).result = .err (.outOfBounds 0x1000) ∧
    (ran { State.reset with pc := 0x1000, dt := 5 }).dt = 5 := by decide

/-- T4: an invalid word is reported after the advance and the tick. -/
theorem test_invalid_word :
    (ran { prog 0x0123 with dt := 3, st := 1 }).result = .err (.invalidInstruction 0x0123 0x200) ∧
    (ran { prog 0x0123 with dt := 3, st := 1 }).pc = 0x202 ∧
    (ran { prog 0x0123 with dt := 3, st := 1 }).dt = 2 ∧
    (ran { prog 0x0123 with dt := 3, st := 1 }).st = 0 := by decide

/-- T6: an odd PC. -/
theorem test_odd_pc : (ran (progAt 0x201 0x6A55)).reg 0xA = 0x55 ∧ (ran (progAt 0x201 0x6A55)).pc = 0x203 := by decide

/-- From reset with nothing placed the first step fetches 0x0000, which matches no row (R107, R114). -/
theorem test_step_from_reset :
    (ran State.reset).result = .err (.invalidInstruction 0x0000 0x200) ∧ (ran State.reset).pc = 0x202 := by decide

/-- Booted with the ROM 12 00, the first step jumps to itself (C8). -/
theorem test_boot_runs_the_rom :
    (State.boot Config.default defaultFont [0x12, 0x00]).map (fun s => ((ran s).pc, (ran s).result)) =
      some (0x200, .ok) := by decide

-- ==== one step of each instruction ====

/-- D1. -/
theorem test_cls : (ran { prog 0x00E0 with vid := [(0, 0xFF), (100, 0x5A), (255, 0x01)] }).vid = [] := by decide

/-- C1. -/
theorem test_ret_underflow :
    (ran (prog 0x00EE)).result = .err .stackUnderflow ∧ (ran (prog 0x00EE)).pc = 0x202 := by decide

/-- C2. -/
theorem test_ret :
    (ran { progAt 0x212 0x00EE with sp := 1, stack := (Vector.replicate 16 0).set 0 0x206 }).pc = 0x206 ∧
    (ran { progAt 0x212 0x00EE with sp := 1, stack := (Vector.replicate 16 0).set 0 0x206 }).sp = 0 := by decide

/-- C7. -/
theorem test_jp : (ran (prog 0x1ABC)).pc = 0xABC := by decide

/-- C3. -/
theorem test_call :
    (ran (progAt 0x204 0x2300)).pc = 0x300 ∧ (ran (progAt 0x204 0x2300)).sp = 1 ∧
    (ran (progAt 0x204 0x2300)).stack[0] = 0x206 := by decide

/-- C5. -/
theorem test_call_overflow :
    (ran { prog 0x2300 with sp := 16 }).result = .err .stackOverflow ∧ (ran { prog 0x2300 with sp := 16 }).pc = 0x202 ∧
    (ran { prog 0x2300 with sp := 16 }).sp = 16 := by decide

/-- K1, K2. -/
theorem test_seImm :
    (ran ((prog 0x3342).setReg 3 0x42)).pc = 0x204 ∧ (ran ((prog 0x3343).setReg 3 0x42)).pc = 0x202 := by decide

/-- K3, K4. -/
theorem test_sneImm :
    (ran ((prog 0x4342).setReg 3 0x42)).pc = 0x202 ∧ (ran ((prog 0x4343).setReg 3 0x42)).pc = 0x204 := by decide

/-- K5, and the same with V[2] different. -/
theorem test_seReg :
    (ran (((progAt 0x300 0x5120).setReg 1 7).setReg 2 7)).pc = 0x304 ∧
    (ran (((progAt 0x300 0x5120).setReg 1 7).setReg 2 8)).pc = 0x302 := by decide

/-- A1. -/
theorem test_ldImm : (ran (prog 0x6A2F)).reg 0xA = 0x2F := by decide

/-- A3: the sum wraps and VF stays. -/
theorem test_addImm_wraps :
    (ran (((prog 0x7102).setReg 1 0xFF).setReg 0xF 0x33)).reg 1 = 0x01 ∧
    (ran (((prog 0x7102).setReg 1 0xFF).setReg 0xF 0x33)).reg 0xF = 0x33 := by decide

/-- A6. -/
theorem test_ldReg : (ran ((prog 0x8120).setReg 2 0x33)).reg 1 = 0x33 := by decide

/-- A7: VF is not reset. -/
theorem test_orReg :
    (ran ((((prog 0x8121).setReg 1 0x0F).setReg 2 0xF0).setReg 0xF 1)).reg 1 = 0xFF ∧
    (ran ((((prog 0x8121).setReg 1 0x0F).setReg 2 0xF0).setReg 0xF 1)).reg 0xF = 1 := by decide

/-- A8. -/
theorem test_andReg : (ran (((prog 0x8122).setReg 1 0x3C).setReg 2 0x0F)).reg 1 = 0x0C := by decide

/-- A9. -/
theorem test_xorReg : (ran (((prog 0x8123).setReg 1 0xFF).setReg 2 0x0F)).reg 1 = 0xF0 := by decide

/-- A11. -/
theorem test_addReg_carry :
    (ran (((prog 0x8124).setReg 1 0xFF).setReg 2 0x01)).reg 1 = 0x00 ∧
    (ran (((prog 0x8124).setReg 1 0xFF).setReg 2 0x01)).reg 0xF = 0x01 := by decide

/-- A14: with x = F the sum is written last. -/
theorem test_addReg_vf : (ran (((prog 0x8F14).setReg 0xF 0x80).setReg 1 0x80)).reg 0xF = 0x00 := by decide

/-- A16. -/
theorem test_subReg_borrow :
    (ran (((prog 0x8125).setReg 1 1).setReg 2 2)).reg 1 = 0xFF ∧
    (ran (((prog 0x8125).setReg 1 1).setReg 2 2)).reg 0xF = 0 := by decide

/-- A17: equal operands give VF = 0. -/
theorem test_subReg_equal : (ran ((((prog 0x8125).setReg 1 5).setReg 2 5).setReg 0xF 1)).reg 0xF = 0 := by decide

/-- A22: V[y] has no effect. -/
theorem test_shr :
    (ran ((((prog 0x8416).setReg 4 4).setReg 1 0xFF).setReg 0xF 1)).reg 4 = 2 ∧
    (ran ((((prog 0x8416).setReg 4 4).setReg 1 0xFF).setReg 0xF 1)).reg 0xF = 0 := by decide

/-- A25. -/
theorem test_subnReg :
    (ran (((prog 0x8127).setReg 1 2).setReg 2 1)).reg 1 = 0xFF ∧
    (ran (((prog 0x8127).setReg 1 2).setReg 2 1)).reg 0xF = 0 := by decide

/-- A28. -/
theorem test_shl :
    (ran ((prog 0x840E).setReg 4 0x81)).reg 4 = 0x02 ∧ (ran ((prog 0x840E).setReg 4 0x81)).reg 0xF = 0x01 := by decide

/-- K7, K8. -/
theorem test_sneReg :
    (ran (((progAt 0x300 0x9120).setReg 1 7).setReg 2 8)).pc = 0x304 ∧
    (ran ((prog 0x9110).setReg 1 9)).pc = 0x202 := by decide

/-- M1. -/
theorem test_ldI : (ran (prog 0xA2F0)).i = 0x2F0 := by decide

/-- C10: the target is not masked to 12 bits. -/
theorem test_jpV0 : (ran ((prog 0xBFFF).setReg 0 0xFF)).pc = 0x10FE := by decide

/-- A32. -/
theorem test_rnd : (ran (given 0 0xA7 (prog 0xC30F))).reg 3 = 0x07 := by decide

/-- D3: a row wraps within itself. -/
theorem test_drw_wraps :
    (ran (poke 0x300 0xFF { (prog 0xD011).setReg 0 63 with i := 0x300 })).vid = [(0, 0xFE), (7, 0x01)] := by decide

/-- D6: a pixel that goes off sets VF. -/
theorem test_drw_collision :
    (ran (poke 0x300 0xC0 { prog 0xD011 with i := 0x300, vid := [(0, 0x80)] })).vid = [(0, 0x40)] ∧
    (ran (poke 0x300 0xC0 { prog 0xD011 with i := 0x300, vid := [(0, 0x80)] })).reg 0xF = 1 := by decide

/-- K11, K15: an index of 16 or more is not pressed. -/
theorem test_skp :
    (ran (given 0x0400 0 ((prog 0xE59E).setReg 5 0xA))).pc = 0x204 ∧
    (ran (given 0xFFFF 0 ((prog 0xE59E).setReg 5 0x10))).pc = 0x202 := by decide

/-- K14, K16. -/
theorem test_sknp :
    (ran (given 0xFBFF 0 ((prog 0xE5A1).setReg 5 0xA))).pc = 0x204 ∧
    (ran (given 0xFFFF 0 ((prog 0xE5A1).setReg 5 0x10))).pc = 0x204 := by decide

/-- W1: DT is read after the tick. -/
theorem test_ldVxDt : (ran { prog 0xF307 with dt := 5 }).reg 3 = 4 := by decide

/-- W5: the lowest key. -/
theorem test_ldVxK : (ran (given 0x0050 0 (prog 0xF10A))).reg 1 = 4 ∧ (ran (given 0x0050 0 (prog 0xF10A))).pc = 0x202 := by
  decide

/-- W3, W4: a blocked step with either value of WAIT_TIMER_TICK. -/
theorem test_ldVxK_blocks :
    (ran { progAt 0x204 0xF10A with dt := 5, st := 1 }).pc = 0x204 ∧
    (ran { progAt 0x204 0xF10A with dt := 5, st := 1 }).dt = 4 ∧
    (ran (noWaitTick { progAt 0x204 0xF10A with dt := 5, st := 1 })).dt = 5 ∧
    (ran (noWaitTick { progAt 0x204 0xF10A with dt := 5, st := 1 })).st = 1 := by decide

/-- W11: the value written stands; the tick came before. -/
theorem test_ldDtVx : (ran { prog 0xF215 with dt := 9 }).dt = 0 ∧ (ran ((prog 0xF215).setReg 2 0x3C)).dt = 0x3C := by decide

/-- W12. -/
theorem test_ldStVx : (ran ((prog 0xF218).setReg 2 5)).st = 5 := by decide

/-- M3: the sum wraps at 2^16 and VF stays. -/
theorem test_addIVx :
    (ran { (prog 0xF21E).setReg 2 1 with i := 0xFFFF }).i = 0 ∧
    (ran { (prog 0xF21E).setReg 2 1 with i := 0xFFFF }).reg 0xF = 0 := by decide

/-- M5, M7. -/
theorem test_ldFVx :
    (ran ((prog 0xF729).setReg 7 0xA)).i = 0x32 ∧ (ran ((prog 0xF729).setReg 7 0xFF)).i = 0x4FB := by decide

/-- M8. -/
theorem test_ldBVx :
    (ran { (prog 0xF133).setReg 1 157 with i := 0x300 }).mem.readBlock 0x300 3 = [1, 5, 7] := by decide

/-- M11: nothing is written when the last digit does not fit. -/
theorem test_ldBVx_out_of_bounds :
    (ran { (prog 0xF133).setReg 1 157 with i := 0xFFE }).result = .err (.outOfBounds 0x1000) ∧
    (ran { (prog 0xF133).setReg 1 157 with i := 0xFFE }).mem.read 0xFFE = 0 := by decide

/-- M14: only V[0] is stored, and I stays. -/
theorem test_ldIVx :
    (ran { ((prog 0xF055).setReg 0 0xAA).setReg 1 0xBB with i := 0x400 }).mem.readBlock 0x400 2 = [0xAA, 0x00] ∧
    (ran { ((prog 0xF055).setReg 0 0xAA).setReg 1 0xBB with i := 0x400 }).i = 0x400 := by decide

/-- M15. -/
theorem test_ldIVx_out_of_bounds :
    (ran { (prog 0xFF55).setReg 0 0x10 with i := 0xFF8 }).result = .err (.outOfBounds 0x1000) ∧
    (ran { (prog 0xFF55).setReg 0 0x10 with i := 0xFF8 }).mem.read 0xFF8 = 0 := by decide

/-- M19: VF is loaded as V[15]. -/
theorem test_ldVxI : (ran (poke 0x30F 0xEE { prog 0xFF65 with i := 0x300 })).reg 0xF = 0xEE := by decide

/-- M20: no register is loaded when the last byte does not exist. -/
theorem test_ldVxI_out_of_bounds :
    (ran { ((prog 0xF165).setReg 0 5).setReg 1 6 with i := 0xFFF }).result = .err (.outOfBounds 0x1000) ∧
    (ran { ((prog 0xF165).setReg 0 5).setReg 1 6 with i := 0xFFF }).reg 0 = 5 := by decide

-- ==== witnesses: states and operands that meet the hypotheses of the statements ====

theorem witness_EncodeGivesBackTheDecodedWord : decode 0x8AB6#16 = .instr (.shr 0xA 0xB) := by decide

theorem witness_DecodeChoosesTheOneRowThatFits :
    decode 0x5AB0#16 = .instr (.seReg 0xA 0xB) ∧
    (∃ r ∈ opcodeTable, r.fits 0x5AB0#16 = true) ∧
    decode 0x5AB1#16 = .invalid 0x5AB1#16 ∧ ∀ r ∈ opcodeTable, r.fits 0x5AB1#16 = false := by decide

/-- A word of each of the six classes, beside a valid neighbour. -/
theorem witness_InvalidWordsAreTheListedOnes :
    (decode 0x00E1#16 = .invalid 0x00E1#16 ∧ decode 0x00E0#16 = .instr .cls) ∧
    (decode 0x5ABF#16 = .invalid 0x5ABF#16 ∧ decode 0x5AB0#16 = .instr (.seReg 0xA 0xB)) ∧
    (decode 0x8ABD#16 = .invalid 0x8ABD#16 ∧ decode 0x8ABE#16 = .instr (.shl 0xA 0xB)) ∧
    (decode 0x9AB1#16 = .invalid 0x9AB1#16 ∧ decode 0x9AB0#16 = .instr (.sneReg 0xA 0xB)) ∧
    (decode 0xEA9F#16 = .invalid 0xEA9F#16 ∧ decode 0xEA9E#16 = .instr (.skp 0xA)) ∧
    (decode 0xFA66#16 = .invalid 0xFA66#16 ∧ decode 0xFA65#16 = .instr (.ldVxI 0xA)) := by decide

/-- An instruction in the last two bytes of memory. -/
theorem witness_StepRunsTheDecodedInstruction :
    (progAt 0xFFE 0x7102).pc.toNat + 2 ≤ (progAt 0xFFE 0x7102).config.memSize ∧
    decodeBytes ((progAt 0xFFE 0x7102).mem.read (progAt 0xFFE 0x7102).pc.toNat)
      ((progAt 0xFFE 0x7102).mem.read ((progAt 0xFFE 0x7102).pc.toNat + 1)) = .instr (.addImm 1 2) := by decide

/-- The last PC whose fetch succeeds, the one between, and the first that fails at PC itself. -/
theorem witness_FetchReadsBigEndianOrRaises :
    (progAt 0xFFE 0x7102).pc.toNat + 1 < (progAt 0xFFE 0x7102).config.memSize ∧
    (progAt 0x1000 0x7102).config.memSize ≤ (progAt 0x1000 0x7102).pc.toNat ∧
    ((progAt 0xFFF 0x7102).pc.toNat < (progAt 0xFFF 0x7102).config.memSize ∧
      (progAt 0xFFF 0x7102).config.memSize ≤ (progAt 0xFFF 0x7102).pc.toNat + 1) := by decide

theorem witness_InvalidWordIsReportedWithItsAddress :
    fetch (prog 0x5AB1) = .ok 0x5AB1#16 ∧ ∀ r ∈ opcodeTable, r.fits 0x5AB1#16 = false := ⟨rfl, by decide⟩

/-- A failed fetch, an invalid word, an instruction that is no timer or key instruction. -/
theorem witness_TimersTickOncePerFetchedStep :
    (step (progAt 0xFFF 0x7102) = .next (ran (progAt 0xFFF 0x7102)) ∧
      (progAt 0xFFF 0x7102).config.memSize < (progAt 0xFFF 0x7102).pc.toNat + 2) ∧
    (step (prog 0x0123) = .next (ran (prog 0x0123)) ∧ fetch (prog 0x0123) = .ok 0x0123#16 ∧
      decode 0x0123#16 = .invalid 0x0123#16) ∧
    (step (prog 0x7102) = .next (ran (prog 0x7102)) ∧ fetch (prog 0x7102) = .ok 0x7102#16 ∧
      decode 0x7102#16 = .instr (.addImm 1 2) ∧
      (Instr.addImm 1 2).row.mnemonic ∉ ["LD_DT_VX", "LD_VX_K"] ∧
      (Instr.addImm 1 2).row.mnemonic ∉ ["LD_ST_VX", "LD_VX_K"]) :=
  ⟨⟨rfl, by decide⟩, ⟨rfl, rfl, by decide⟩, ⟨rfl, rfl, by decide⟩⟩

/-- Fx0A with a key down, blocked with WAIT_TIMER_TICK true, and blocked with it false. -/
theorem witness_TimersTickOncePerFetchedStep_wait :
    (step (given 0x8000 0 (prog 0xF10A)) = .next (ran (given 0x8000 0 (prog 0xF10A))) ∧
      fetch (given 0x8000 0 (prog 0xF10A)) = .ok 0xF10A#16 ∧ (given 0x8000 0 (prog 0xF10A)).key ≠ 0x0000#16) ∧
    (step (prog 0xF10A) = .next (ran (prog 0xF10A)) ∧ fetch (prog 0xF10A) = .ok 0xF10A#16 ∧
      (prog 0xF10A).config.waitTimerTick = true) ∧
    (step (noWaitTick (prog 0xF10A)) = .next (ran (noWaitTick (prog 0xF10A))) ∧
      fetch (noWaitTick (prog 0xF10A)) = .ok 0xF10A#16 ∧ (noWaitTick (prog 0xF10A)).key = 0x0000#16 ∧
      (noWaitTick (prog 0xF10A)).config.waitTimerTick = false) ∧
    decode 0xF10A#16 = .instr (.ldVxK 1) ∧ (Instr.ldVxK 1).row.mnemonic = "LD_VX_K" :=
  ⟨⟨rfl, rfl, by decide⟩, ⟨rfl, rfl, by decide⟩, ⟨rfl, rfl, by decide⟩, by decide⟩

/-- A failed fetch, and an error after a fetch that succeeded. -/
theorem witness_AnErrorLeavesOnlyTheCompletedSubSteps :
    (StepReturns (progAt 0xFFF 0x7102) (.err (.outOfBounds 0x1000)) (ran (progAt 0xFFF 0x7102)) ∧
      (progAt 0xFFF 0x7102).config.memSize < (progAt 0xFFF 0x7102).pc.toNat + 2) ∧
    (StepReturns (prog 0x00EE) (.err .stackUnderflow) (ran (prog 0x00EE)) ∧
      (prog 0x00EE).pc.toNat + 2 ≤ (prog 0x00EE).config.memSize) :=
  ⟨⟨⟨rfl, rfl⟩, by decide⟩, ⟨⟨rfl, rfl⟩, by decide⟩⟩

/-- Each of the four errors, OutOfBounds from an instruction included. -/
theorem witness_EachErrorHasItsCause :
    StepReturns (prog 0x0123) (.err (.invalidInstruction 0x0123 0x200)) (ran (prog 0x0123)) ∧
    StepReturns { prog 0x2300 with sp := 16 } (.err .stackOverflow) (ran { prog 0x2300 with sp := 16 }) ∧
    StepReturns (prog 0x00EE) (.err .stackUnderflow) (ran (prog 0x00EE)) ∧
    StepReturns { prog 0xF165 with i := 0xFFF } (.err (.outOfBounds 0x1000)) (ran { prog 0xF165 with i := 0xFFF }) :=
  ⟨⟨rfl, rfl⟩, ⟨rfl, rfl⟩, ⟨rfl, rfl⟩, ⟨rfl, rfl⟩⟩

theorem witness_AStepUsesOneInputAndKeepsTheParameters : step (prog 0x7102) = .next (ran (prog 0x7102)) := rfl

/-- A storing step from a state whose memory lists the last byte. -/
theorem witness_EveryStepKeepsTheInvariant :
    (poke 0xFFF 0x77 { prog 0xF133 with i := 0xFFD, vid := [(255, 0x01)] }).Inv ∧
    step (poke 0xFFF 0x77 { prog 0xF133 with i := 0xFFD, vid := [(255, 0x01)] }) =
      .next (ran (poke 0xFFF 0x77 { prog 0xF133 with i := 0xFFD, vid := [(255, 0x01)] })) := ⟨by decide, rfl⟩

/-- Two steps of a jump to itself. -/
theorem witness_AnOkRunKeepsTheInvariant : (prog 0x1200).Inv ∧ RunOk 2 (prog 0x1200) (ran (ran (prog 0x1200))) :=
  ⟨by decide, _, ⟨rfl, rfl⟩, _, ⟨rfl, rfl⟩, rfl⟩

/-- The smallest memory, filled to its last byte. -/
theorem witness_BootLoadsFontAndRom :
    Config.WellFormed { memSize := 0x202, waitTimerTick := true } ∧ FontWellFormed defaultFont ∧
    RomFits { memSize := 0x202, waitTimerTick := true } [0x12, 0x00] := by decide

/-- Fx65 with x = 3 and the register above; 8xy4 and a register that is neither V[x] nor VF. -/
theorem witness_OnlyTheTablesRegistersAreWritten :
    (exec (.ldVxI 3) { State.reset with i := 0x300 } = .next (did (.ldVxI 3) { State.reset with i := 0x300 }) ∧
      ¬ mayWriteReg (.ldVxI 3) 4) ∧
    (exec (.addReg 1 2) State.reset = .next (did (.addReg 1 2) State.reset) ∧ ¬ mayWriteReg (.addReg 1 2) 2) :=
  ⟨⟨rfl, by simp [mayWriteReg]⟩, ⟨rfl, by simp [mayWriteReg, regVF]⟩⟩

theorem witness_OnlyThreeInstructionsWriteI :
    exec (.ldVxI 3) { State.reset with i := 0x300 } = .next (did (.ldVxI 3) { State.reset with i := 0x300 }) ∧
    (Instr.ldVxI 3).row.mnemonic ∉ ["LD_I", "ADD_I_VX", "LD_F_VX"] := ⟨rfl, by decide⟩

/-- A draw, Fx0A with a key down, and a jump (which is neither call nor return). -/
theorem witness_OnlyControlTransfersWritePcAndStack :
    (exec (.drw 0 1 2) State.reset = .next (did (.drw 0 1 2) State.reset) ∧
      (Instr.drw 0 1 2).row.mnemonic ∉
        ["RET", "JP", "CALL", "JP_V0", "SE_IMM", "SNE_IMM", "SE_REG", "SNE_REG", "SKP", "SKNP", "LD_VX_K"]) ∧
    (exec (.ldVxK 1) (given 0x0001 0 State.reset) = .next (did (.ldVxK 1) (given 0x0001 0 State.reset)) ∧
      (Instr.ldVxK 1).row.mnemonic = "LD_VX_K" ∧ (given 0x0001 0 State.reset).key ≠ 0x0000#16) ∧
    (exec (.jp 0x300) State.reset = .next (did (.jp 0x300) State.reset) ∧
      (Instr.jp 0x300).row.mnemonic ∉ ["CALL", "RET"]) :=
  ⟨⟨rfl, by decide⟩, ⟨rfl, by decide⟩, ⟨rfl, by decide⟩⟩

/-- The first byte after what Fx33 stores and the last before what Fx55 stores; each with the other's premise too. -/
theorem witness_OnlyStoresWriteMainMemory :
    (exec (.ldBVx 1) { State.reset with i := 0x300 } = .next (did (.ldBVx 1) { State.reset with i := 0x300 }) ∧
      (∀ x, Instr.ldBVx 1 = .ldBVx x →
        0x303 < State.ea { State.reset with i := 0x300 } 0 ∨ State.ea { State.reset with i := 0x300 } 0 + 3 ≤ 0x303) ∧
      (∀ x, Instr.ldBVx 1 ≠ .ldIVx x)) ∧
    (exec (.ldIVx 4) { State.reset with i := 0x300 } = .next (did (.ldIVx 4) { State.reset with i := 0x300 }) ∧
      (∀ x, Instr.ldIVx 4 ≠ .ldBVx x) ∧
      (∀ x : Reg, Instr.ldIVx 4 = .ldIVx x →
        0x2FF < State.ea { State.reset with i := 0x300 } 0 ∨
        State.ea { State.reset with i := 0x300 } 0 + (x.toNat + 1) ≤ 0x2FF)) :=
  ⟨⟨rfl, by decide, by decide⟩, ⟨rfl, by decide, by decide⟩⟩

theorem witness_OnlyDisplayInstructionsWriteVideo :
    exec (.ldIVx 4) { State.reset with i := 0x300 } = .next (did (.ldIVx 4) { State.reset with i := 0x300 }) ∧
    (Instr.ldIVx 4).row.mnemonic ∉ ["CLS", "DRW"] := ⟨rfl, by decide⟩

/-- An instruction that is none of the timer and key instructions, and Fx0A with and without a key. -/
theorem witness_OnlyTimerInstructionsWriteTimers :
    (exec (.ldVxDt 1) State.reset = .next (did (.ldVxDt 1) State.reset) ∧
      (Instr.ldVxDt 1).row.mnemonic ∉ ["LD_DT_VX", "LD_VX_K"] ∧
      (Instr.ldVxDt 1).row.mnemonic ∉ ["LD_ST_VX", "LD_VX_K"]) ∧
    (exec (.ldVxK 1) (given 0x8000 0 State.reset) = .next (did (.ldVxK 1) (given 0x8000 0 State.reset)) ∧
      (Instr.ldVxK 1).row.mnemonic = "LD_VX_K" ∧ (given 0x8000 0 State.reset).key ≠ 0x0000#16) ∧
    (exec (.ldVxK 1) (given 0 0 State.reset) = .next (did (.ldVxK 1) (given 0 0 State.reset)) ∧
      (given 0 0 State.reset).config.waitTimerTick = true) :=
  ⟨⟨rfl, by decide⟩, ⟨rfl, by decide⟩, ⟨rfl, by decide⟩⟩

/-- A key instruction with the same key and another random byte, Cxkk with the same byte and another key, and an instruction
that reads neither. -/
theorem witness_OnlyFourInstructionsReadTheInputs :
    (exec (.skp 1) (given 0x0001 0x11 State.reset) = .next (did (.skp 1) (given 0x0001 0x11 State.reset)) ∧
      (Instr.skp 1).row.mnemonic ∈ ["SKP", "SKNP", "LD_VX_K"] ∧ (Instr.skp 1).row.mnemonic ≠ "RND" ∧
      State.key { given 0x0001 0x11 State.reset with inputs := [{ key := 0x0001, rand := 0x22 }], stepNo := 7 } =
        (given 0x0001 0x11 State.reset).key) ∧
    (exec (.rnd 1 0xFF) (given 0x0001 0x11 State.reset) = .next (did (.rnd 1 0xFF) (given 0x0001 0x11 State.reset)) ∧
      (Instr.rnd 1 0xFF).row.mnemonic ∉ ["SKP", "SKNP", "LD_VX_K"] ∧ (Instr.rnd 1 0xFF).row.mnemonic = "RND" ∧
      State.rand { given 0x0001 0x11 State.reset with inputs := [{ key := 0x0002, rand := 0x11 }], stepNo := 7 } =
        (given 0x0001 0x11 State.reset).rand) ∧
    (exec (.jp 0x300) State.reset = .next (did (.jp 0x300) State.reset) ∧
      (Instr.jp 0x300).row.mnemonic ∉ ["SKP", "SKNP", "LD_VX_K"] ∧ (Instr.jp 0x300).row.mnemonic ≠ "RND") :=
  ⟨⟨rfl, by decide⟩, ⟨rfl, by decide⟩, ⟨rfl, by decide⟩⟩

/-- A plain instruction, Fx18, Fx0A with a key down, and a blocked Fx0A with WAIT_TIMER_TICK = false. -/
theorem witness_NoInstructionReadsSt :
    (exec (.ldVxDt 1) State.reset = .next (did (.ldVxDt 1) State.reset) ∧
      (Instr.ldVxDt 1).row.mnemonic ∉ ["LD_ST_VX", "LD_VX_K"]) ∧
    (exec (.ldStVx 1) State.reset = .next (did (.ldStVx 1) State.reset) ∧ (Instr.ldStVx 1).row.mnemonic = "LD_ST_VX") ∧
    (exec (.ldVxK 1) (given 0x8000 0 State.reset) = .next (did (.ldVxK 1) (given 0x8000 0 State.reset)) ∧
      (Instr.ldVxK 1).row.mnemonic = "LD_VX_K" ∧ (given 0x8000 0 State.reset).key ≠ 0x0000#16) ∧
    (exec (.ldVxK 1) (noWaitTick (given 0 0 State.reset)) = .next (did (.ldVxK 1) (noWaitTick (given 0 0 State.reset))) ∧
      (noWaitTick (given 0 0 State.reset)).key = 0x0000#16 ∧
      (noWaitTick (given 0 0 State.reset)).config.waitTimerTick = false) :=
  ⟨⟨rfl, by decide⟩, ⟨rfl, by decide⟩, ⟨rfl, by decide⟩, ⟨rfl, by decide⟩⟩

/-- Depth 15 and depth 16. -/
theorem witness_CallPushesTheNextAddressOrOverflows :
    State.sp { State.reset with sp := 15 } < 16 ∧ (State.sp { State.reset with sp := 16 }).val = 16 := by decide

/-- Depth 1, depth 16 and depth 0. -/
theorem witness_ReturnPopsOrUnderflows :
    0 < (State.sp { State.reset with sp := 1 }).val ∧ 0 < (State.sp { State.reset with sp := 16 }).val ∧
    State.reset.sp.val = 0 := by decide

theorem witness_ReturnUndoesCall : (State.sp { State.reset with sp := 15 }).val < 16 := by decide

theorem witness_LoadsAndAddImmediateWriteOneRegister : (0xF#4 : Reg) ≠ 0xE#4 := by decide

theorem witness_LogicWritesBitwiseResults : (0xF#4 : Reg) ≠ 0xE#4 := by decide

/-- x below F with the largest sum that has no carry and the smallest that has one; a third register. -/
theorem witness_AddSetsCarry :
    (0xE#4 : Reg) ≠ 0xF#4 ∧ (0x0#4 : Reg) ≠ 0xE#4 ∧ (0x0#4 : Reg) ≠ 0xF#4 ∧
    ¬ (0xFE#8).toNat + (0x01#8).toNat > 255 ∧ (0xFF#8).toNat + (0x01#8).toNat > 255 := by decide

theorem witness_SubtractSetsStrictlyGreater :
    (0xE#4 : Reg) ≠ 0xF#4 ∧ (0x0#4 : Reg) ≠ 0xE#4 ∧ (0x0#4 : Reg) ≠ 0xF#4 ∧
    ¬ (0x05#8).toNat > (0x05#8).toNat ∧ (0x06#8).toNat > (0x05#8).toNat := by decide

theorem witness_ShiftsMoveOneBitIntoVf :
    (0xE#4 : Reg) ≠ 0xF#4 ∧ (0x0#4 : Reg) ≠ 0xE#4 ∧ (0x0#4 : Reg) ≠ 0xF#4 := by decide

theorem witness_RandomByteIsMasked : (0x00#8 : Byte) = 0x00#8 ∧ (0xFF#8 : Byte) = 0xFF#8 ∧ (0x2#4 : Reg) ≠ 0x3#4 := by decide

/-- The last I whose three bytes exist, and those whose third or first byte is the first to fail. -/
theorem witness_BcdStoresThreeDigitsOrRaises :
    (Memory.wf State.reset.config.memSize State.reset.mem ∧
      State.ea { State.reset with i := 0xFFD } 2 < State.reset.config.memSize) ∧
    (State.reset.config.memSize ≤ State.ea { State.reset with i := 0xFFE } 2 ∧
      ∀ j, j < 2 → State.ea { State.reset with i := 0xFFE } j < State.reset.config.memSize) ∧
    (State.reset.config.memSize ≤ State.ea { State.reset with i := 0x1000 } 0 ∧
      ∀ j, j < 0 → State.ea { State.reset with i := 0x1000 } j < State.reset.config.memSize) := by decide

/-- x = F at the last I whose 16 bytes exist, and those whose last or first byte is the first to fail (Fx55 and Fx65). -/
theorem witness_RegistersAreStoredOrItRaises :
    (Memory.wf State.reset.config.memSize State.reset.mem ∧
      State.ea { State.reset with i := 0xFF0 } (0xF#4 : Reg).toNat < State.reset.config.memSize) ∧
    (15 ≤ (0xF#4 : Reg).toNat ∧ State.reset.config.memSize ≤ State.ea { State.reset with i := 0xFF1 } 15 ∧
      ∀ j, j < 15 → State.ea { State.reset with i := 0xFF1 } j < State.reset.config.memSize) ∧
    (0 ≤ (0x0#4 : Reg).toNat ∧ State.reset.config.memSize ≤ State.ea { State.reset with i := 0xFFFF } 0 ∧
      ∀ j, j < 0 → State.ea { State.reset with i := 0xFFFF } j < State.reset.config.memSize) := by decide

theorem witness_RegistersAreLoadedOrItRaises :
    State.ea { State.reset with i := 0xFFF } (0x0#4 : Reg).toNat < State.reset.config.memSize ∧
    (1 ≤ (0x1#4 : Reg).toNat ∧ State.reset.config.memSize ≤ State.ea { State.reset with i := 0xFFF } 1 ∧
      ∀ j, j < 1 → State.ea { State.reset with i := 0xFFF } j < State.reset.config.memSize) := by decide

theorem witness_LoadRestoresStoredRegisters :
    Memory.wf State.reset.config.memSize State.reset.mem ∧
    State.ea { State.reset with i := 0xFF0 } (0xF#4 : Reg).toNat < State.reset.config.memSize := by decide

/-- V[0] and V[1] stored at the last two bytes of memory and fetched from there. -/
theorem witness_StoredBytesAreFetched :
    Memory.wf State.reset.config.memSize State.reset.mem ∧
    State.ea { State.reset with i := 0xFFE } (0x1#4 : Reg).toNat < State.reset.config.memSize ∧
    exec (.ldIVx 1) { State.reset with i := 0xFFE } = .next (did (.ldIVx 1) { State.reset with i := 0xFFE }) ∧
    (0x0#4 : Reg).toNat + 1 ≤ (0x1#4 : Reg).toNat ∧
    (0xFFE#16 : Word).toNat = State.ea { State.reset with i := 0xFFE } (0x0#4 : Reg).toNat :=
  ⟨by decide, by decide, rfl, by decide, by decide⟩

/-- A collision at pixel (0, 0); the sprite's 15 rows end at the last byte of memory. -/
theorem witness_DrawXorsTheWrappedSprite_hit :
    Memory.wf 256 (poke 0xFF1 0x80 { State.reset with i := 0xFF1, vid := [(0, 0x80)] }).vid ∧
    (poke 0xFF1 0x80 { State.reset with i := 0xFF1, vid := [(0, 0x80)] }).i.toNat + (0xF#4 : Nibble).toNat ≤
      (poke 0xFF1 0x80 { State.reset with i := 0xFF1, vid := [(0, 0x80)] }).config.memSize ∧
    (poke 0xFF1 0x80 { State.reset with i := 0xFF1, vid := [(0, 0x80)] }).spriteOn 0 1 15 0 0 = true ∧
    (poke 0xFF1 0x80 { State.reset with i := 0xFF1, vid := [(0, 0x80)] }).vid.pixel 0 0 = true := by decide

/-- No collision on a blank screen; and n = 0 with I far out of bounds. -/
theorem witness_DrawXorsTheWrappedSprite_clear :
    Memory.wf 256 (poke 0x300 0x80 { State.reset with i := 0x300 }).vid ∧
    (poke 0x300 0x80 { State.reset with i := 0x300 }).i.toNat + (0x1#4 : Nibble).toNat ≤
      (poke 0x300 0x80 { State.reset with i := 0x300 }).config.memSize ∧
    (poke 0x300 0x80 { State.reset with i := 0x300 }).spriteOn 0 1 1 0 0 = true ∧
    (∀ px py, px < 64 → py < 32 → (poke 0x300 0x80 { State.reset with i := 0x300 }).spriteOn 0 1 1 px py = true →
      (poke 0x300 0x80 { State.reset with i := 0x300 }).vid.pixel px py = false) ∧
    (∀ px py, px < 64 → py < 32 → State.spriteOn { State.reset with i := 0xFFFF } 0 1 (0x0#4 : Nibble).toNat px py = true →
      State.reset.vid.pixel px py = false) :=
  ⟨by decide, by decide, by decide, fun _ _ _ _ _ => BitVec.getLsbD_zero,
    fun _ _ _ _ _ => BitVec.getLsbD_zero⟩

/-- The first and the last of 15 rows is the first out of bounds. -/
theorem witness_DrawOutOfBoundsDrawsNothing :
    (0 < (0xF#4 : Nibble).toNat ∧ State.reset.config.memSize ≤ State.ea { State.reset with i := 0x1000 } 0 ∧
      ∀ j, j < 0 → State.ea { State.reset with i := 0x1000 } j < State.reset.config.memSize) ∧
    (14 < (0xF#4 : Nibble).toNat ∧ State.reset.config.memSize ≤ State.ea { State.reset with i := 0xFF2 } 14 ∧
      ∀ j, j < 14 → State.ea { State.reset with i := 0xFF2 } j < State.reset.config.memSize) := by decide

/-- A 1 bit on a pixel that is off, with x and y not F. -/
theorem witness_DrawingTwiceRestoresTheScreen :
    Memory.wf 256 (poke 0x300 0x80 { State.reset with i := 0x300 }).vid ∧ (0x0#4 : Reg) ≠ 0xF#4 ∧ (0xE#4 : Reg) ≠ 0xF#4 ∧
    (poke 0x300 0x80 { State.reset with i := 0x300 }).i.toNat + (0x1#4 : Nibble).toNat ≤
      (poke 0x300 0x80 { State.reset with i := 0x300 }).config.memSize ∧
    (poke 0x300 0x80 { State.reset with i := 0x300 }).spriteOn 0 0xE 1 0 0 = true ∧
    (poke 0x300 0x80 { State.reset with i := 0x300 }).vid.pixel 0 0 = false := by decide

/-- A 1 bit on a pixel that is on, and no other: the second draw turns it on and reports nothing. -/
theorem witness_DrawingTwiceRestoresTheScreen_on :
    (poke 0x300 0x80 { State.reset with i := 0x300, vid := [(0, 0x80)] }).spriteOn 0 0xE 1 0 0 = true ∧
    ∀ px, px < 64 → ∀ py, py < 32 →
      (poke 0x300 0x80 { State.reset with i := 0x300, vid := [(0, 0x80)] }).spriteOn 0 0xE 1 px py = true →
      (poke 0x300 0x80 { State.reset with i := 0x300, vid := [(0, 0x80)] }).vid.pixel px py = true := by decide

theorem witness_TimerAccessComesAfterTheTick :
    (fetch (prog 0xF307) = .ok 0xF307#16 ∧ decode 0xF307#16 = .instr (.ldVxDt 3)) ∧
    (fetch (prog 0xF315) = .ok 0xF315#16 ∧ decode 0xF315#16 = .instr (.ldDtVx 3)) ∧
    (fetch (prog 0xF318) = .ok 0xF318#16 ∧ decode 0xF318#16 = .instr (.ldStVx 3)) :=
  ⟨⟨rfl, by decide⟩, ⟨rfl, by decide⟩, ⟨rfl, by decide⟩⟩

/-- W13: F2 15 F3 07 with V[2] = 1. -/
theorem witness_DelayTimerReadBackIsOneLess :
    let s := poke 0x202 0xF3 (poke 0x203 0x07 ((prog 0xF215).setReg 2 1))
    fetch s = .ok 0xF215#16 ∧ decode 0xF215#16 = .instr (.ldDtVx 2) ∧ step s = .next (ran s) ∧
    fetch (ran s) = .ok 0xF307#16 ∧ decode 0xF307#16 = .instr (.ldVxDt 3) ∧ step (ran s) = .next (ran (ran s)) :=
  ⟨rfl, by decide, rfl, rfl, by decide, rfl⟩

/-- Only the highest key down, and no key down. -/
theorem witness_WaitForKeyTakesTheLowestKeyOrBlocks :
    (given 0x8000 0 State.reset).key ≠ 0x0000#16 ∧ (given 0x0000 0 State.reset).key = 0x0000#16 ∧
    (noWaitTick (given 0x0000 0 State.reset)).key = 0x0000#16 := by decide

/-- With either value of WAIT_TIMER_TICK. -/
theorem witness_ABlockedStepRunsAgain :
    (fetch (progAt 0xFFE 0xF10A) = .ok 0xF10A#16 ∧ decode 0xF10A#16 = .instr (.ldVxK 1) ∧
      (progAt 0xFFE 0xF10A).key = 0x0000#16) ∧
    (fetch (noWaitTick (prog 0xF10A)) = .ok 0xF10A#16 ∧ (noWaitTick (prog 0xF10A)).key = 0x0000#16) :=
  ⟨⟨rfl, by decide, by decide⟩, ⟨rfl, by decide⟩⟩

end Sys2Proof.Tests
end

/-! Proofs for 40_control_flow.md. -/

section
namespace Sys2Proof.Machine

open Sys2Proof.Laws

/-- R102: an instruction that fits its own row has the row's fixed bits in its word. -/
theorem encode_and_mask_of_ownRow {i : Instr} (h : OwnRow.Statement i) : encode i &&& i.row.mask = i.row.pattern :=
  eq_of_beq h.right

/-- R103: the decoder reads a jump's target back from its word. -/
theorem decode_encode_jp (nnn : Addr12) : decode (encode (.jp nnn)) = .instr (.jp nnn) := by
  rw [encode, decode_op1 _ (opField_nnn _ _), nnnField_nnn]

theorem encodedAs_jp (nnn : Addr12) : EncodedAs (.jp nnn) 0xF000 0x1000 :=
  ⟨encode_and_mask_of_ownRow (OwnRow.jp nnn), decode_encode_jp nnn⟩

theorem exec_jp (nnn : Addr12) (s : State) : exec (.jp nnn) s = .next (s.jump (zextAddr nnn)) := rfl

/-- Settles O28: 1nnn answers `State.jump` to the zero-extended nnn, an update of PC alone. -/
theorem jumpGoesToItsTarget : Obligations.JumpGoesToItsTarget := by
  intro s nnn
  have hpc : (s.jump (zextAddr nnn)).pc.toNat = nnn.toNat := zextAddr_toNat nnn
  have hframe : s.jump (zextAddr nnn) = { s with pc := (s.jump (zextAddr nnn)).pc } := rfl
  exact ⟨encodedAs_jp nnn, s.jump (zextAddr nnn), exec_jp nnn s, hpc, hframe⟩

end Sys2Proof.Machine
end

/-! Proofs for 41_skips.md. -/

section
namespace Sys2Proof.Machine

open Sys2Proof.Laws

/-! The words of the immediate and register skips (R103, R141 to R144). -/

theorem decode_encode_seImm (x : Reg) (kk : Byte) : decode (encode (.seImm x kk)) = .instr (.seImm x kk) := by
  rw [encode, decode_op3 _ (opField_xkk _ _ _), xField_xkk, kkField_xkk]

theorem decode_encode_sneImm (x : Reg) (kk : Byte) : decode (encode (.sneImm x kk)) = .instr (.sneImm x kk) := by
  rw [encode, decode_op4 _ (opField_xkk _ _ _), xField_xkk, kkField_xkk]

theorem decode_encode_seReg (x y : Reg) : decode (encode (.seReg x y)) = .instr (.seReg x y) := by
  rw [encode, decode_op5 _ (opField_xyn _ _ _ _), if_pos (nField_xyn _ _ _ _), xField_xyn, yField_xyn]

theorem decode_encode_sneReg (x y : Reg) : decode (encode (.sneReg x y)) = .instr (.sneReg x y) := by
  rw [encode, decode_op9 _ (opField_xyn _ _ _ _), if_pos (nField_xyn _ _ _ _), xField_xyn, yField_xyn]

theorem encodedAs_seImm (x : Reg) (kk : Byte) : EncodedAs (.seImm x kk) 0xF000 0x3000 :=
  ⟨encode_and_mask_of_ownRow (OwnRow.seImm x kk), decode_encode_seImm x kk⟩

theorem encodedAs_sneImm (x : Reg) (kk : Byte) : EncodedAs (.sneImm x kk) 0xF000 0x4000 :=
  ⟨encode_and_mask_of_ownRow (OwnRow.sneImm x kk), decode_encode_sneImm x kk⟩

theorem encodedAs_seReg (x y : Reg) : EncodedAs (.seReg x y) 0xF00F 0x5000 :=
  ⟨encode_and_mask_of_ownRow (OwnRow.seReg x y), decode_encode_seReg x y⟩

theorem encodedAs_sneReg (x y : Reg) : EncodedAs (.sneReg x y) 0xF00F 0x9000 :=
  ⟨encode_and_mask_of_ownRow (OwnRow.sneReg x y), decode_encode_sneReg x y⟩

/-- R107: under the major opcodes 0x5 and 0x9 the only row has n = 0. -/
theorem decode_op5_or_op9_of_nField_ne_zero (w : Word) (hop : opField w = 0x5#4 ∨ opField w = 0x9#4)
    (hn : nField w ≠ 0x0#4) : decode w = .invalid w := by
  obtain h5 | h9 := hop
  · rw [decode_op5 w h5, if_neg hn]
  · rw [decode_op9 w h9, if_neg hn]

/-! A skip on a comparison of two bytes, as an update of PC alone (R140). -/

theorem State.skipIf_beq (s : State) (a b : Byte) :
    s.skipIf (a == b) = { s with pc := if a = b then s.pc + 2#16 else s.pc } := by
  simp only [State.skipIf_eq, beq_iff_eq]

theorem State.skipIf_bne (s : State) (a b : Byte) :
    s.skipIf (a != b) = { s with pc := if a = b then s.pc else s.pc + 2#16 } := by
  simp only [State.skipIf_eq, bne_iff_ne, ite_not]

theorem exec_seImm (x : Reg) (kk : Byte) (s : State) :
    exec (.seImm x kk) s = .next (s.skipIf (s.reg x == kk)) := rfl

theorem exec_sneImm (x : Reg) (kk : Byte) (s : State) :
    exec (.sneImm x kk) s = .next (s.skipIf (s.reg x != kk)) := rfl

theorem exec_seReg (x y : Reg) (s : State) :
    exec (.seReg x y) s = .next (s.skipIf (s.reg x == s.reg y)) := rfl

theorem exec_sneReg (x y : Reg) (s : State) :
    exec (.sneReg x y) s = .next (s.skipIf (s.reg x != s.reg y)) := rfl

/-- Settles O33: 3xkk and 4xkk are `State.skipIf` on the two outcomes of comparing V[x] with kk. -/
theorem immediateSkipsCompareWithKk : Obligations.ImmediateSkipsCompareWithKk := by
  intro s x kk
  refine ⟨encodedAs_seImm x kk, encodedAs_sneImm x kk, ?_, ?_⟩
  · rw [exec_seImm, State.skipIf_beq]
  · rw [exec_sneImm, State.skipIf_bne]

/-- Settles O34: 5xy0 and 9xy0 are `State.skipIf` on the two outcomes of comparing V[x] with V[y], and n = 0 is the
only row of their major opcodes. -/
theorem registerSkipsCompareTheRegisters : Obligations.RegisterSkipsCompareTheRegisters := by
  intro s x y
  refine ⟨encodedAs_seReg x y, encodedAs_sneReg x y, decode_op5_or_op9_of_nField_ne_zero, ?_, ?_⟩
  · rw [exec_seReg, State.skipIf_beq]
  · rw [exec_sneReg, State.skipIf_bne]

end Sys2Proof.Machine
end


/-! Proofs for 42_alu.md. -/

section
namespace Sys2Proof.Machine

open Sys2Proof.Laws

/-! The words of the register loads, 7xkk and the logic instructions (R103, R152 to R157). -/

theorem decode_encode_ldImm (x : Reg) (kk : Byte) : decode (encode (.ldImm x kk)) = .instr (.ldImm x kk) := by
  rw [encode, decode_op6 _ (opField_xkk _ _ _), xField_xkk, kkField_xkk]

theorem decode_encode_addImm (x : Reg) (kk : Byte) : decode (encode (.addImm x kk)) = .instr (.addImm x kk) := by
  rw [encode, decode_op7 _ (opField_xkk _ _ _), xField_xkk, kkField_xkk]

/-- R105: a word of major opcode 0x8 is decoded by its last nibble. -/
theorem decode_op8_xyn (x y : Reg) (n : Nibble) :
    decode (0x8#4 ++ x ++ y ++ n) = decodeAlu (0x8#4 ++ x ++ y ++ n) :=
  decode_op8 _ (opField_xyn _ _ _ _)

theorem decode_encode_ldReg (x y : Reg) : decode (encode (.ldReg x y)) = .instr (.ldReg x y) := by
  simp only [encode, decode_op8_xyn, decodeAlu, nField_xyn, xField_xyn, yField_xyn]

theorem decode_encode_orReg (x y : Reg) : decode (encode (.orReg x y)) = .instr (.orReg x y) := by
  simp only [encode, decode_op8_xyn, decodeAlu, nField_xyn, xField_xyn, yField_xyn]

theorem decode_encode_andReg (x y : Reg) : decode (encode (.andReg x y)) = .instr (.andReg x y) := by
  simp only [encode, decode_op8_xyn, decodeAlu, nField_xyn, xField_xyn, yField_xyn]

theorem decode_encode_xorReg (x y : Reg) : decode (encode (.xorReg x y)) = .instr (.xorReg x y) := by
  simp only [encode, decode_op8_xyn, decodeAlu, nField_xyn, xField_xyn, yField_xyn]

theorem encodedAs_ldImm (x : Reg) (kk : Byte) : EncodedAs (.ldImm x kk) 0xF000 0x6000 :=
  ⟨encode_and_mask_of_ownRow (OwnRow.ldImm x kk), decode_encode_ldImm x kk⟩

theorem encodedAs_addImm (x : Reg) (kk : Byte) : EncodedAs (.addImm x kk) 0xF000 0x7000 :=
  ⟨encode_and_mask_of_ownRow (OwnRow.addImm x kk), decode_encode_addImm x kk⟩

theorem encodedAs_ldReg (x y : Reg) : EncodedAs (.ldReg x y) 0xF00F 0x8000 :=
  ⟨encode_and_mask_of_ownRow (OwnRow.ldReg x y), decode_encode_ldReg x y⟩

theorem encodedAs_orReg (x y : Reg) : EncodedAs (.orReg x y) 0xF00F 0x8001 :=
  ⟨encode_and_mask_of_ownRow (OwnRow.orReg x y), decode_encode_orReg x y⟩

theorem encodedAs_andReg (x y : Reg) : EncodedAs (.andReg x y) 0xF00F 0x8002 :=
  ⟨encode_and_mask_of_ownRow (OwnRow.andReg x y), decode_encode_andReg x y⟩

theorem encodedAs_xorReg (x y : Reg) : EncodedAs (.xorReg x y) 0xF00F 0x8003 :=
  ⟨encode_and_mask_of_ownRow (OwnRow.xorReg x y), decode_encode_xorReg x y⟩

/-! Their effects, each one write of V[x] (R150). -/

theorem exec_ldImm (x : Reg) (kk : Byte) (s : State) : exec (.ldImm x kk) s = .next (s.setReg x kk) := rfl

theorem exec_addImm (x : Reg) (kk : Byte) (s : State) :
    exec (.addImm x kk) s = .next (s.setReg x (s.reg x + kk)) := rfl

theorem exec_ldReg (x y : Reg) (s : State) : exec (.ldReg x y) s = .next (s.setReg x (s.reg y)) := rfl

theorem exec_orReg (x y : Reg) (s : State) : exec (.orReg x y) s = .next (s.setReg x (s.reg x ||| s.reg y)) := rfl

theorem exec_andReg (x y : Reg) (s : State) : exec (.andReg x y) s = .next (s.setReg x (s.reg x &&& s.reg y)) := rfl

theorem exec_xorReg (x y : Reg) (s : State) : exec (.xorReg x y) s = .next (s.setReg x (s.reg x ^^^ s.reg y)) := rfl

/-- A write of V[x] leaves the other registers, VF among them, and every other field. -/
theorem State.setReg_frame (s : State) (x : Reg) (b : Byte) :
    (∀ k, k ≠ x → (s.setReg x b).reg k = s.reg k) ∧ s.setReg x b = { s with v := (s.setReg x b).v } :=
  ⟨fun k hk => State.reg_setReg_ne s x k b hk, rfl⟩

/-- Settles O37: 6xkk, 7xkk and 8xy0 are each one `State.setReg` of V[x], of kk, of the byte sum and of V[y]. -/
theorem loadsAndAddImmediateWriteOneRegister : Obligations.LoadsAndAddImmediateWriteOneRegister := by
  intro s x y kk
  have hsum : ((s.setReg x (s.reg x + kk)).reg x).toNat = ((s.reg x).toNat + kk.toNat) % 256 := by
    rw [State.reg_setReg_same, BitVec.toNat_add]
  refine ⟨encodedAs_ldImm x kk, encodedAs_addImm x kk, encodedAs_ldReg x y, ?_, ?_, ?_⟩
  · exact ⟨_, exec_ldImm x kk s, s.reg_setReg_same x kk, s.setReg_frame x _⟩
  · exact ⟨_, exec_addImm x kk s, hsum, s.setReg_frame x _⟩
  · exact ⟨_, exec_ldReg x y s, s.reg_setReg_same x _, s.setReg_frame x _⟩

/-- Settles O38: 8xy1, 8xy2 and 8xy3 are each one `State.setReg` of V[x], of a byte whose bits are those of the two
registers combined; VF is one of the registers left alone. -/
theorem logicWritesBitwiseResults : Obligations.LogicWritesBitwiseResults := by
  intro s x y
  refine ⟨encodedAs_orReg x y, encodedAs_andReg x y, encodedAs_xorReg x y, ?_, ?_, ?_⟩
  · refine ⟨_, exec_orReg x y s, fun j => ?_, s.setReg_frame x _⟩
    rw [State.reg_setReg_same, BitVec.getLsbD_or]
  · refine ⟨_, exec_andReg x y s, fun j => ?_, s.setReg_frame x _⟩
    rw [State.reg_setReg_same, BitVec.getLsbD_and]
  · refine ⟨_, exec_xorReg x y s, fun j => ?_, s.setReg_frame x _⟩
    rw [State.reg_setReg_same, BitVec.getLsbD_xor]

end Sys2Proof.Machine
end

/-! Proofs for 43_index_memory.md. -/

section
namespace Sys2Proof.Machine

open Sys2Proof.Laws

/-! The words of the two loads of I (R103, R180, R182). -/

theorem decode_encode_ldI (nnn : Addr12) : decode (encode (.ldI nnn)) = .instr (.ldI nnn) := by
  rw [encode, decode_opA _ (opField_nnn _ _), nnnField_nnn]

/-- Under major opcode 0xF the decoder selects by kk, which is 0x29 in this word (R105). -/
theorem decode_encode_ldFVx (x : Reg) : decode (encode (.ldFVx x)) = .instr (.ldFVx x) := by
  rw [encode, decode_opF _ (opField_xkk _ _ _)]
  simp only [decodeMisc, kkField_xkk, xField_xkk]

theorem encodedAs_ldI (nnn : Addr12) : EncodedAs (.ldI nnn) 0xF000 0xA000 :=
  ⟨encode_and_mask_of_ownRow (OwnRow.ldI nnn), decode_encode_ldI nnn⟩

theorem encodedAs_ldFVx (x : Reg) : EncodedAs (.ldFVx x) 0xF0FF 0xF029 :=
  ⟨encode_and_mask_of_ownRow (OwnRow.ldFVx x), decode_encode_ldFVx x⟩

/-! Their effects, each one write of I. -/

theorem exec_ldI (nnn : Addr12) (s : State) : exec (.ldI nnn) s = .next { s with i := zextAddr nnn } := rfl

theorem exec_ldFVx (x : Reg) (s : State) : exec (.ldFVx x) s = .next { s with i := spriteAddress (s.reg x) } := rfl

/-- Settles O43: Annn and Fx29 each update I alone, to the zero-extended nnn and to the sprite address of V[x]; the
product of a byte and 5 is at most 1275, so no bit of it is lost in the 16 of I. -/
theorem indexLoadsAreUnmasked : Obligations.IndexLoadsAreUnmasked := by
  intro s nnn x
  refine ⟨encodedAs_ldI nnn, encodedAs_ldFVx x, ?_, ?_⟩
  · exact ⟨_, exec_ldI nnn s, zextAddr_toNat nnn, rfl⟩
  · exact ⟨_, exec_ldFVx x s, spriteAddress_toNat (s.reg x), rfl⟩

end Sys2Proof.Machine
end

/-! Proofs for 44_display.md. -/

section
namespace Sys2Proof.Machine

open Sys2Proof.Laws

/-! The word of 00E0 (R103, R200). -/

/-- Under major opcode 0x0 the decoder compares the whole word, and that of 00E0 comes first (R105). -/
theorem decode_encode_cls : decode (encode .cls) = .instr .cls := by
  rw [encode, decode_op0 _ (by decide), if_pos rfl]

theorem encodedAs_cls : EncodedAs .cls 0xFFFF 0x00E0 :=
  ⟨encode_and_mask_of_ownRow OwnRow.cls, decode_encode_cls⟩

/-! Its effect, one write of video memory (R200). -/

theorem exec_cls (s : State) : exec .cls s = .next { s with vid := blankVideo } := rfl

@[simp] theorem read_blankVideo (a : Nat) : blankVideo.read a = 0x00#8 := Memory.read_nil a

/-- R80: a pixel is one bit of its byte, so it is off where the byte is 0x00. -/
theorem Memory.pixel_of_read_eq_zero (m : Memory) (px py : Nat) (h : m.read (pixelAddress px py) = 0x00#8) :
    m.pixel px py = false := by
  rw [Memory.pixel, h, BitVec.getLsbD_zero]

/-- Settles O50: 00E0 replaces video memory by `blankVideo` and no other field; every byte of it reads 0x00, so every
pixel is off. -/
theorem clearZeroesTheScreen : Obligations.ClearZeroesTheScreen := by
  refine ⟨encodedAs_cls, fun s => ⟨_, exec_cls s, read_blankVideo, fun px py => ?_, rfl⟩⟩
  exact Memory.pixel_of_read_eq_zero _ px py (read_blankVideo _)

end Sys2Proof.Machine
end

/-! Proofs for 45_timers_keys.md. -/

section
namespace Sys2Proof.Machine

open Sys2Proof.Laws

/-! The word of Fx07 (R103, R220). -/

/-- Under major opcode 0xF the decoder selects by kk, which is 0x07 in this word (R105). -/
theorem decode_encode_ldVxDt (x : Reg) : decode (encode (.ldVxDt x)) = .instr (.ldVxDt x) := by
  rw [encode, decode_opF _ (opField_xkk _ _ _)]
  simp only [decodeMisc, kkField_xkk, xField_xkk]

theorem encodedAs_ldVxDt (x : Reg) : EncodedAs (.ldVxDt x) 0xF0FF 0xF007 :=
  ⟨encode_and_mask_of_ownRow (OwnRow.ldVxDt x), decode_encode_ldVxDt x⟩

/-! The effects of the three timer accesses, each one write (R220, R222, R223). -/

theorem exec_ldVxDt (x : Reg) (s : State) : exec (.ldVxDt x) s = .next (s.setReg x s.dt) := rfl

theorem exec_ldDtVx (x : Reg) (s : State) : exec (.ldDtVx x) s = .next { s with dt := s.reg x } := rfl

theorem exec_ldStVx (x : Reg) (s : State) : exec (.ldStVx x) s = .next { s with st := s.reg x } := rfl

/-! The steps that run them: the beginning of a step changes no register, its end no register and no timer. -/

@[simp] theorem State.reg_enter (s : State) (k : Reg) : s.enter.reg k = s.reg k := State.reg_congr s.enter_v k

@[simp] theorem State.reg_finish (s : State) (k : Reg) : s.finish.reg k = s.reg k := State.reg_congr s.finish_v k

/-- R113: a step whose instruction completes ends in the state the instruction made of the entered one. -/
theorem step_of_exec {s t : State} {w : Word} {i : Instr} (hf : fetch s = .ok w) (hd : decode w = .instr i)
    (he : exec i s.enter = .next t) : step s = .next t.finish := by
  rw [step_of_instr s w i hf hd, he, finishOutcome_next]

/-- Settles O54: Fx07, Fx15 and Fx18 are each one write, and a whole step runs them in `State.enter`, whose DT is
`tickByte` of the old one and whose registers are the old ones; `State.finish` keeps what they wrote. -/
theorem timerAccessComesAfterTheTick : Obligations.TimerAccessComesAfterTheTick := by
  intro s x
  refine ⟨encodedAs_ldVxDt x, ?_, exec_ldDtVx x s, exec_ldStVx x s, ?_, ?_, ?_⟩
  · exact ⟨_, exec_ldVxDt x s, s.reg_setReg_same x s.dt, s.setReg_frame x s.dt⟩
  · intro w hf hd
    have hreg : (s.enter.setReg x s.enter.dt).finish.reg x = tickByte s.dt := by
      rw [State.reg_finish, State.reg_setReg_same, State.enter_dt]
    refine ⟨_, step_of_exec hf hd (exec_ldVxDt x s.enter), ?_, ?_⟩
    · rw [hreg, tickByte_toNat]
    · rw [hreg, State.finish_dt, State.setReg_dt, State.enter_dt]
  · intro w hf hd
    exact ⟨_, step_of_exec hf hd (exec_ldDtVx x s.enter), s.reg_enter x⟩
  · intro w hf hd
    exact ⟨_, step_of_exec hf hd (exec_ldStVx x s.enter), s.reg_enter x⟩

end Sys2Proof.Machine
end

/-! Proofs for 60_exceptions.md. -/

section
namespace Sys2Proof.Machine

open Sys2Proof.Laws

/-! The timers across an instruction: what keeps both of them (R249). -/

/-- Whatever state the outcome answers, DT and ST in it are those of s. -/
def KeepsTimers (s : State) (o : Outcome) : Prop := ∀ t, o = .next t → t.dt = s.dt ∧ t.st = s.st

theorem keepsTimers_next {s t : State} (hdt : t.dt = s.dt) (hst : t.st = s.st) : KeepsTimers s (.next t) := by
  rintro _ ⟨⟩
  exact ⟨hdt, hst⟩

theorem keepsTimers_raise (e : StepError) (s : State) : KeepsTimers s (raise e s) := keepsTimers_next rfl rfl

theorem keepsTimers_skipIf (s : State) (c : Bool) : KeepsTimers s (.next (s.skipIf c)) :=
  keepsTimers_next (s.skipIf_dt c) (s.skipIf_st c)

/-- R77: a checked access answers the given state or raises. -/
theorem keepsTimers_checked {s t : State} (base n : Nat) (hdt : t.dt = s.dt) (hst : t.st = s.st) :
    KeepsTimers s (checked s base n t) := by
  intro u hu
  obtain ⟨-, rfl⟩ | ⟨-, rfl⟩ := checked_cases hu
  · exact ⟨hdt, hst⟩
  · exact ⟨rfl, rfl⟩

theorem keepsTimers_loadRegs (s : State) (base n k : Nat) : KeepsTimers s (checked s base n (s.loadRegs k)) := by
  rw [s.loadRegs_eq k]
  exact keepsTimers_checked base n rfl rfl

theorem keepsTimers_execRet (s : State) : KeepsTimers s (execRet s) := by
  obtain h0 | hpos := Nat.eq_zero_or_pos s.sp.val
  · rw [execRet, s.pop_of_zero h0]
    exact keepsTimers_raise _ s
  · rw [execRet, s.pop_of_pos hpos]
    exact keepsTimers_next rfl rfl

theorem keepsTimers_execCall (nnn : Addr12) (s : State) : KeepsTimers s (execCall nnn s) := by
  obtain hlt | hfull := Nat.lt_or_eq_of_le (Nat.le_of_lt_succ s.sp.isLt)
  · rw [execCall, s.push_of_lt _ hlt]
    exact keepsTimers_next rfl rfl
  · rw [execCall, s.push_of_full _ hfull]
    exact keepsTimers_raise _ s

/-- R249: Fx15, Fx18 and Fx0A are the only instructions that may leave a timer changed. -/
theorem exec_keepsTimers_or (i : Instr) (s : State) :
    KeepsTimers s (exec i s) ∨ (∃ x, i = .ldDtVx x) ∨ (∃ x, i = .ldStVx x) ∨ (∃ x, i = .ldVxK x) := by
  cases i with
  | ldDtVx x => exact .inr (.inl ⟨x, rfl⟩)
  | ldStVx x => exact .inr (.inr (.inl ⟨x, rfl⟩))
  | ldVxK x => exact .inr (.inr (.inr ⟨x, rfl⟩))
  | ret => exact .inl (keepsTimers_execRet s)
  | call nnn => exact .inl (keepsTimers_execCall nnn s)
  | seImm | sneImm | seReg | sneReg | skp | sknp => exact .inl (keepsTimers_skipIf s _)
  | drw | ldBVx | ldIVx => exact .inl (keepsTimers_checked _ _ rfl rfl)
  | ldVxI => exact .inl (keepsTimers_loadRegs s _ _ _)
  | _ => exact .inl (keepsTimers_next rfl rfl)

theorem exec_keeps_dt {i : Instr} {s t : State} (h : exec i s = .next t)
    (hi : i.row.mnemonic ∉ ["LD_DT_VX", "LD_VX_K"]) : t.dt = s.dt := by
  obtain hkeep | ⟨x, rfl⟩ | ⟨x, rfl⟩ | ⟨x, rfl⟩ := exec_keepsTimers_or i s
  · exact (hkeep t h).left
  · simp [Instr.row] at hi
  · cases h
    rfl
  · simp [Instr.row] at hi

theorem exec_keeps_st {i : Instr} {s t : State} (h : exec i s = .next t)
    (hi : i.row.mnemonic ∉ ["LD_ST_VX", "LD_VX_K"]) : t.st = s.st := by
  obtain hkeep | ⟨x, rfl⟩ | ⟨x, rfl⟩ | ⟨x, rfl⟩ := exec_keepsTimers_or i s
  · exact (hkeep t h).right
  · cases h
    rfl
  · simp [Instr.row] at hi
  · simp [Instr.row] at hi

/-! Fx0A and the timers (R221). -/

theorem Instr.eq_ldVxK_of_mnemonic {i : Instr} (h : i.row.mnemonic = "LD_VX_K") : ∃ x, i = .ldVxK x := by
  cases i with
  | ldVxK x => exact ⟨x, rfl⟩
  | _ => simp [Instr.row] at h

theorem exec_ldVxK_of_key {s : State} (x : Reg) (hk : s.key ≠ 0x0000#16) :
    exec (.ldVxK x) s = .next (s.setReg x (lowestKey s.key)) :=
  congrArg Host.Outcome.next (if_neg hk)

theorem exec_ldVxK_of_no_key {s : State} (x : Reg) (hk : s.key = 0x0000#16) :
    exec (.ldVxK x) s = .next s.blockOnKey :=
  congrArg Host.Outcome.next (if_pos hk)

/-- Fx0A keeps the timers when it completes, and when it blocks where WAIT_TIMER_TICK is true. -/
theorem keepsTimers_ldVxK {s : State} (x : Reg) (h : s.key ≠ 0x0000#16 ∨ s.config.waitTimerTick = true) :
    KeepsTimers s (exec (.ldVxK x) s) := by
  by_cases hk : s.key = 0x0000#16
  · have hwait : s.config.waitTimerTick = true := h.resolve_left (not_not_intro hk)
    rw [exec_ldVxK_of_no_key x hk, s.blockOnKey_eq]
    exact keepsTimers_next (if_pos hwait) (if_pos hwait)
  · rw [exec_ldVxK_of_key x hk]
    exact keepsTimers_next rfl rfl

/-- A blocked Fx0A puts both timers back to their values at the start of the step where WAIT_TIMER_TICK is false. -/
theorem exec_ldVxK_restores_timers {s t : State} {x : Reg} (h : exec (.ldVxK x) s = .next t)
    (hk : s.key = 0x0000#16) (hwait : s.config.waitTimerTick = false) : t.dt = s.dtStart ∧ t.st = s.stStart := by
  rw [exec_ldVxK_of_no_key x hk, s.blockOnKey_eq] at h
  cases h
  simp [hwait]

/-! The steps around them (R113, R248). -/

theorem exec_of_step {s u : State} {w : Word} {i : Instr} (h : step s = .next u) (hf : fetch s = .ok w)
    (hd : decode w = .instr i) : ∃ t, exec i s.enter = .next t ∧ u = t.finish := by
  rw [step_of_instr s w i hf hd] at h
  exact (finishOutcome_eq_next_iff _ u).1 h

/-! A step that ends with a timer as `State.enter` left it has ticked that timer once. -/

theorem finish_dt_toNat_of_eq_enter {s t : State} (h : t.dt = s.enter.dt) :
    t.finish.dt.toNat = s.dt.toNat - 1 := by
  rw [State.finish_dt, h, State.enter_dt, tickByte_toNat]

theorem finish_st_toNat_of_eq_enter {s t : State} (h : t.st = s.enter.st) :
    t.finish.st.toNat = s.st.toNat - 1 := by
  rw [State.finish_st, h, State.enter_st, tickByte_toNat]

theorem step_of_outOfBounds_keeps_timers {s u : State} (h : step s = .next u)
    (hb : s.config.memSize < s.pc.toNat + 2) : u.dt = s.dt ∧ u.st = s.st := by
  rw [step_of_fetch_error s _ (fetch_of_outOfBounds s hb)] at h
  cases h
  exact ⟨rfl, rfl⟩

theorem step_of_invalid_ticks {s u : State} {w : Word} (h : step s = .next u) (hf : fetch s = .ok w)
    (hd : decode w = .invalid w) : u.dt.toNat = s.dt.toNat - 1 ∧ u.st.toNat = s.st.toNat - 1 := by
  rw [step_of_invalid s w w hf hd] at h
  cases h
  exact ⟨finish_dt_toNat_of_eq_enter rfl, finish_st_toNat_of_eq_enter rfl⟩

/-- Settles O9: a failed fetch ends before the tick, an invalid word after it; an instruction runs in `State.enter`, whose
timers have ticked, and keeps each timer it does not write. -/
theorem timersTickOncePerFetchedStep : Obligations.TimersTickOncePerFetchedStep := by
  intro s u hstep
  refine ⟨step_of_outOfBounds_keeps_timers hstep, fun w => step_of_invalid_ticks hstep, fun w i hf hd => ?_⟩
  obtain ⟨t, hexec, rfl⟩ := exec_of_step hstep hf hd
  refine ⟨fun hi => ?_, fun hi => ?_, fun hi hkeep => ?_, fun hi hk hwait => ?_⟩
  · exact finish_dt_toNat_of_eq_enter (exec_keeps_dt hexec hi)
  · exact finish_st_toNat_of_eq_enter (exec_keeps_st hexec hi)
  · obtain ⟨x, rfl⟩ := Instr.eq_ldVxK_of_mnemonic hi
    obtain ⟨hdt, hst⟩ := keepsTimers_ldVxK (s := s.enter) x hkeep t hexec
    exact ⟨finish_dt_toNat_of_eq_enter hdt, finish_st_toNat_of_eq_enter hst⟩
  · obtain ⟨x, rfl⟩ := Instr.eq_ldVxK_of_mnemonic hi
    exact exec_ldVxK_restores_timers hexec hk hwait

end Sys2Proof.Machine
end

/-! Proofs for 30_encoding.md, sections 1 to 4: the round trips, the opcode table and the invalid words. -/

section
namespace Sys2Proof

open Sys2Proof.Machine Sys2Proof.Laws

/-! The words not yet read back (R103): each by the field the opcode map of R105 selects its row by. -/

theorem decode_encode_ret : decode (encode .ret) = .instr .ret := by
  rw [encode, decode_op0 _ (by decide), if_neg (by decide), if_pos rfl]

theorem decode_encode_call (nnn : Addr12) : decode (encode (.call nnn)) = .instr (.call nnn) := by
  rw [encode, decode_op2 _ (opField_nnn _ _), nnnField_nnn]

theorem decode_encode_jpV0 (nnn : Addr12) : decode (encode (.jpV0 nnn)) = .instr (.jpV0 nnn) := by
  rw [encode, decode_opB _ (opField_nnn _ _), nnnField_nnn]

theorem decode_encode_rnd (x : Reg) (kk : Byte) : decode (encode (.rnd x kk)) = .instr (.rnd x kk) := by
  rw [encode, decode_opC _ (opField_xkk _ _ _), xField_xkk, kkField_xkk]

theorem decode_encode_drw (x y : Reg) (n : Nibble) : decode (encode (.drw x y n)) = .instr (.drw x y n) := by
  rw [encode, decode_opD _ (opField_xyn _ _ _ _), xField_xyn, yField_xyn, nField_xyn]

theorem decode_encode_addReg (x y : Reg) : decode (encode (.addReg x y)) = .instr (.addReg x y) := by
  simp only [encode, decode_op8_xyn, decodeAlu, nField_xyn, xField_xyn, yField_xyn]

theorem decode_encode_subReg (x y : Reg) : decode (encode (.subReg x y)) = .instr (.subReg x y) := by
  simp only [encode, decode_op8_xyn, decodeAlu, nField_xyn, xField_xyn, yField_xyn]

theorem decode_encode_shr (x y : Reg) : decode (encode (.shr x y)) = .instr (.shr x y) := by
  simp only [encode, decode_op8_xyn, decodeAlu, nField_xyn, xField_xyn, yField_xyn]

theorem decode_encode_subnReg (x y : Reg) : decode (encode (.subnReg x y)) = .instr (.subnReg x y) := by
  simp only [encode, decode_op8_xyn, decodeAlu, nField_xyn, xField_xyn, yField_xyn]

theorem decode_encode_shl (x y : Reg) : decode (encode (.shl x y)) = .instr (.shl x y) := by
  simp only [encode, decode_op8_xyn, decodeAlu, nField_xyn, xField_xyn, yField_xyn]

/-- R105: a word of major opcode 0xE is decoded by kk. -/
theorem decode_opE_xkk (x : Reg) (kk : Byte) : decode (0xE#4 ++ x ++ kk) = decodeKey (0xE#4 ++ x ++ kk) :=
  decode_opE _ (opField_xkk _ _ _)

theorem decode_encode_skp (x : Reg) : decode (encode (.skp x)) = .instr (.skp x) := by
  simp only [encode, decode_opE_xkk, decodeKey, kkField_xkk, xField_xkk]

theorem decode_encode_sknp (x : Reg) : decode (encode (.sknp x)) = .instr (.sknp x) := by
  simp only [encode, decode_opE_xkk, decodeKey, kkField_xkk, xField_xkk]

/-- R105: a word of major opcode 0xF is decoded by kk. -/
theorem decode_opF_xkk (x : Reg) (kk : Byte) : decode (0xF#4 ++ x ++ kk) = decodeMisc (0xF#4 ++ x ++ kk) :=
  decode_opF _ (opField_xkk _ _ _)

theorem decode_encode_ldVxK (x : Reg) : decode (encode (.ldVxK x)) = .instr (.ldVxK x) := by
  simp only [encode, decode_opF_xkk, decodeMisc, kkField_xkk, xField_xkk]

theorem decode_encode_ldDtVx (x : Reg) : decode (encode (.ldDtVx x)) = .instr (.ldDtVx x) := by
  simp only [encode, decode_opF_xkk, decodeMisc, kkField_xkk, xField_xkk]

theorem decode_encode_ldStVx (x : Reg) : decode (encode (.ldStVx x)) = .instr (.ldStVx x) := by
  simp only [encode, decode_opF_xkk, decodeMisc, kkField_xkk, xField_xkk]

theorem decode_encode_addIVx (x : Reg) : decode (encode (.addIVx x)) = .instr (.addIVx x) := by
  simp only [encode, decode_opF_xkk, decodeMisc, kkField_xkk, xField_xkk]

theorem decode_encode_ldBVx (x : Reg) : decode (encode (.ldBVx x)) = .instr (.ldBVx x) := by
  simp only [encode, decode_opF_xkk, decodeMisc, kkField_xkk, xField_xkk]

theorem decode_encode_ldIVx (x : Reg) : decode (encode (.ldIVx x)) = .instr (.ldIVx x) := by
  simp only [encode, decode_opF_xkk, decodeMisc, kkField_xkk, xField_xkk]

theorem decode_encode_ldVxI (x : Reg) : decode (encode (.ldVxI x)) = .instr (.ldVxI x) := by
  simp only [encode, decode_opF_xkk, decodeMisc, kkField_xkk, xField_xkk]

/-- Settles O1: each of the 34 forms is read back by the lemma of its own word. -/
theorem decodeGivesBackTheEncodedInstruction : Obligations.DecodeGivesBackTheEncodedInstruction := by
  intro i
  cases i with
  | cls => exact decode_encode_cls
  | ret => exact decode_encode_ret
  | jp nnn => exact decode_encode_jp nnn
  | call nnn => exact decode_encode_call nnn
  | seImm x kk => exact decode_encode_seImm x kk
  | sneImm x kk => exact decode_encode_sneImm x kk
  | seReg x y => exact decode_encode_seReg x y
  | ldImm x kk => exact decode_encode_ldImm x kk
  | addImm x kk => exact decode_encode_addImm x kk
  | ldReg x y => exact decode_encode_ldReg x y
  | orReg x y => exact decode_encode_orReg x y
  | andReg x y => exact decode_encode_andReg x y
  | xorReg x y => exact decode_encode_xorReg x y
  | addReg x y => exact decode_encode_addReg x y
  | subReg x y => exact decode_encode_subReg x y
  | shr x y => exact decode_encode_shr x y
  | subnReg x y => exact decode_encode_subnReg x y
  | shl x y => exact decode_encode_shl x y
  | sneReg x y => exact decode_encode_sneReg x y
  | ldI nnn => exact decode_encode_ldI nnn
  | jpV0 nnn => exact decode_encode_jpV0 nnn
  | rnd x kk => exact decode_encode_rnd x kk
  | drw x y n => exact decode_encode_drw x y n
  | skp x => exact decode_encode_skp x
  | sknp x => exact decode_encode_sknp x
  | ldVxDt x => exact decode_encode_ldVxDt x
  | ldVxK x => exact decode_encode_ldVxK x
  | ldDtVx x => exact decode_encode_ldDtVx x
  | ldStVx x => exact decode_encode_ldStVx x
  | addIVx x => exact decode_encode_addIVx x
  | ldFVx x => exact decode_encode_ldFVx x
  | ldBVx x => exact decode_encode_ldBVx x
  | ldIVx x => exact decode_encode_ldIVx x
  | ldVxI x => exact decode_encode_ldVxI x

/-! A word rebuilt from its fields, in the three formats with operands (R101, R103). -/

theorem word_of_op {w : Word} {o : Nibble} (ho : opField w = o) : o ++ nnnField w = w :=
  ho ▸ word_eq_nnn w

theorem word_of_op_xkk {w : Word} {o : Nibble} (ho : opField w = o) : o ++ xField w ++ kkField w = w :=
  ho ▸ word_eq_xkk w

theorem word_of_op_xyn {w : Word} {o : Nibble} (ho : opField w = o) : o ++ xField w ++ yField w ++ nField w = w :=
  ho ▸ word_eq_xyn w

theorem word_of_op_kk {w : Word} {o : Nibble} {kk : Byte} (ho : opField w = o) (hk : kkField w = kk) :
    o ++ xField w ++ kk = w :=
  hk ▸ word_of_op_xkk ho

theorem word_of_op_n {w : Word} {o n : Nibble} (ho : opField w = o) (hn : nField w = n) :
    o ++ xField w ++ yField w ++ n = w :=
  hn ▸ word_of_op_xyn ho

/-! Everything the decoder can answer (R105, R118): Invalid with the word itself, or an instruction whose word this is. The
fields the decoder reads, with the row's fixed digits in place, are all the bits of the word. -/

/-- What d says of w: Invalid with w itself, or an instruction whose word is w. -/
def DecodesFaithfully (w : Word) (d : Decoded) : Prop := d = .invalid w ∨ ∃ i, d = .instr i ∧ encode i = w

theorem decodesFaithfully_invalid (w : Word) : DecodesFaithfully w (.invalid w) := .inl rfl

theorem decodesFaithfully_instr {w : Word} {i : Instr} (h : encode i = w) : DecodesFaithfully w (.instr i) :=
  .inr ⟨i, rfl, h⟩

theorem decodeAlu_faithful {w : Word} (ho : opField w = 0x8#4) : DecodesFaithfully w (decodeAlu w) := by
  unfold decodeAlu
  split
  case h_10 => exact decodesFaithfully_invalid w
  all_goals exact decodesFaithfully_instr (word_of_op_n ho ‹_›)

theorem decodeKey_faithful {w : Word} (ho : opField w = 0xE#4) : DecodesFaithfully w (decodeKey w) := by
  unfold decodeKey
  split
  case h_3 => exact decodesFaithfully_invalid w
  all_goals exact decodesFaithfully_instr (word_of_op_kk ho ‹_›)

theorem decodeMisc_faithful {w : Word} (ho : opField w = 0xF#4) : DecodesFaithfully w (decodeMisc w) := by
  unfold decodeMisc
  split
  case h_10 => exact decodesFaithfully_invalid w
  all_goals exact decodesFaithfully_instr (word_of_op_kk ho ‹_›)

/-- By the major opcode: under ten of them every word has a row, under the other six only some words have. -/
theorem decode_faithful (w : Word) : DecodesFaithfully w (decode w) := by
  obtain ho | ho | ho | ho | ho | ho | ho | ho | ho | ho | ho | ho | ho | ho | ho | ho := nibble_cases (opField w)
  · rw [decode_op0 w ho]
    split
    · exact decodesFaithfully_instr (Eq.symm ‹_›)
    · split
      · exact decodesFaithfully_instr (Eq.symm ‹_›)
      · exact decodesFaithfully_invalid w
  · rw [decode_op1 w ho]; exact decodesFaithfully_instr (word_of_op ho)
  · rw [decode_op2 w ho]; exact decodesFaithfully_instr (word_of_op ho)
  · rw [decode_op3 w ho]; exact decodesFaithfully_instr (word_of_op_xkk ho)
  · rw [decode_op4 w ho]; exact decodesFaithfully_instr (word_of_op_xkk ho)
  · rw [decode_op5 w ho]
    split
    · exact decodesFaithfully_instr (word_of_op_n ho ‹_›)
    · exact decodesFaithfully_invalid w
  · rw [decode_op6 w ho]; exact decodesFaithfully_instr (word_of_op_xkk ho)
  · rw [decode_op7 w ho]; exact decodesFaithfully_instr (word_of_op_xkk ho)
  · rw [decode_op8 w ho]; exact decodeAlu_faithful ho
  · rw [decode_op9 w ho]
    split
    · exact decodesFaithfully_instr (word_of_op_n ho ‹_›)
    · exact decodesFaithfully_invalid w
  · rw [decode_opA w ho]; exact decodesFaithfully_instr (word_of_op ho)
  · rw [decode_opB w ho]; exact decodesFaithfully_instr (word_of_op ho)
  · rw [decode_opC w ho]; exact decodesFaithfully_instr (word_of_op_xkk ho)
  · rw [decode_opD w ho]; exact decodesFaithfully_instr (word_of_op_xyn ho)
  · rw [decode_opE w ho]; exact decodeKey_faithful ho
  · rw [decode_opF w ho]; exact decodeMisc_faithful ho

theorem encode_of_decode {w : Word} {i : Instr} (h : decode w = .instr i) : encode i = w := by
  obtain hinv | ⟨j, hj, hw⟩ := decode_faithful w
  · rw [hinv] at h; cases h
  · rw [hj] at h; cases h; exact hw

/-- R118: an Invalid carries the raw bits. -/
theorem eq_of_decode_eq_invalid {w w' : Word} (h : decode w = .invalid w') : w' = w := by
  obtain hinv | ⟨j, hj, -⟩ := decode_faithful w
  · rw [hinv] at h; cases h; rfl
  · rw [hj] at h; cases h

/-- Settles O2: what the decoder answers an instruction for is that instruction's word. -/
theorem encodeGivesBackTheDecodedWord : Obligations.EncodeGivesBackTheDecodedWord := fun _ _ => encode_of_decode

/-! The rows of the opcode table (R105, R106). -/

theorem ownRow (i : Instr) : OwnRow.Statement i := by
  cases i with
  | cls => exact OwnRow.cls
  | ret => exact OwnRow.ret
  | jp nnn => exact OwnRow.jp nnn
  | call nnn => exact OwnRow.call nnn
  | seImm x kk => exact OwnRow.seImm x kk
  | sneImm x kk => exact OwnRow.sneImm x kk
  | seReg x y => exact OwnRow.seReg x y
  | ldImm x kk => exact OwnRow.ldImm x kk
  | addImm x kk => exact OwnRow.addImm x kk
  | ldReg x y => exact OwnRow.ldReg x y
  | orReg x y => exact OwnRow.orReg x y
  | andReg x y => exact OwnRow.andReg x y
  | xorReg x y => exact OwnRow.xorReg x y
  | addReg x y => exact OwnRow.addReg x y
  | subReg x y => exact OwnRow.subReg x y
  | shr x y => exact OwnRow.shr x y
  | subnReg x y => exact OwnRow.subnReg x y
  | shl x y => exact OwnRow.shl x y
  | sneReg x y => exact OwnRow.sneReg x y
  | ldI nnn => exact OwnRow.ldI nnn
  | jpV0 nnn => exact OwnRow.jpV0 nnn
  | rnd x kk => exact OwnRow.rnd x kk
  | drw x y n => exact OwnRow.drw x y n
  | skp x => exact OwnRow.skp x
  | sknp x => exact OwnRow.sknp x
  | ldVxDt x => exact OwnRow.ldVxDt x
  | ldVxK x => exact OwnRow.ldVxK x
  | ldDtVx x => exact OwnRow.ldDtVx x
  | ldStVx x => exact OwnRow.ldStVx x
  | addIVx x => exact OwnRow.addIVx x
  | ldFVx x => exact OwnRow.ldFVx x
  | ldBVx x => exact OwnRow.ldBVx x
  | ldIVx x => exact OwnRow.ldIVx x
  | ldVxI x => exact OwnRow.ldVxI x

theorem row_fits_of_decode {w : Word} {i : Instr} (h : decode w = .instr i) : i.row.fits w = true :=
  encode_of_decode h ▸ (ownRow i).right

/-- Two distinct rows of the table ask for a different value of some bit that both masks keep (R106). -/
theorem opcodeTable_rows_conflict :
    ∀ r ∈ opcodeTable, ∀ q ∈ opcodeTable, r.pattern &&& q.mask = q.pattern &&& r.mask → r = q := by
  decide

/-- R106: no word fits two rows of the table. -/
theorem row_unique {r q : Row} {w : Word} (hr : r ∈ opcodeTable) (hq : q ∈ opcodeTable) (hrw : r.fits w = true)
    (hqw : q.fits w = true) : r = q := by
  refine opcodeTable_rows_conflict r hr q hq ?_
  rw [← eq_of_beq hrw, ← eq_of_beq hqw, BitVec.and_assoc, BitVec.and_assoc, BitVec.and_comm r.mask]

/-! A word that fits a row is rebuilt from the row's fixed digits and the word's own operand fields: the converse of the
three lemmas of `OwnRow` on the formats (R102, R103). -/

theorem Row.and_mask_of_fits {r : Row} {w : Word} (h : r.fits w = true) : w &&& r.mask = r.pattern := eq_of_beq h

theorem eq_of_fits_all {r : Row} {w : Word} (hm : r.mask = 0xFFFF#16) (h : r.fits w = true) : r.pattern = w := by
  rw [← Row.and_mask_of_fits h, hm]
  exact BitVec.and_allOnes (w := 16)

theorem opField_of_fits {r : Row} {w : Word} {o : Nibble} (hm : r.mask = 0xF000#16) (hp : r.pattern = o ++ 0x000#12)
    (h : r.fits w = true) : opField w = o := by
  have hw := Row.and_mask_of_fits h
  rw [hm, hp, and_mask_op] at hw
  rw [← opField_nnn (opField w) 0x000#12, hw, opField_nnn]

theorem word_of_fits_op_n {r : Row} {w : Word} {o n : Nibble} (hm : r.mask = 0xF00F#16)
    (hp : r.pattern = o ++ 0x00#8 ++ n) (h : r.fits w = true) : o ++ xField w ++ yField w ++ n = w := by
  have hw : opField w ++ 0x00#8 ++ nField w = o ++ 0x00#8 ++ n := by
    rw [← and_mask_op_n, ← hm, ← hp]
    exact Row.and_mask_of_fits h
  have hnat := congrArg BitVec.toNat hw
  simp only [append_toNat] at hnat
  have := (nField w).isLt
  have := n.isLt
  exact word_of_op_n (BitVec.eq_of_toNat_eq (by omega)) (BitVec.eq_of_toNat_eq (by omega))

theorem word_of_fits_op_kk {r : Row} {w : Word} {o : Nibble} {kk : Byte} (hm : r.mask = 0xF0FF#16)
    (hp : r.pattern = o ++ 0x0#4 ++ kk) (h : r.fits w = true) : o ++ xField w ++ kk = w := by
  have hw := Row.and_mask_of_fits h
  rw [hm, hp, and_mask_op_kk] at hw
  exact word_of_op_kk (by rw [← opField_xkk (opField w) 0x0#4 (kkField w), hw, opField_xkk])
    (by rw [← kkField_xkk (opField w) 0x0#4 (kkField w), hw, kkField_xkk])

/-- A word that fits a row of the table is the word of an instruction: the one of that row with the word's own operand
fields (R103). -/
theorem exists_encode_of_row_fits (i : Instr) {w : Word} (h : i.row.fits w = true) : ∃ j, encode j = w := by
  cases i with
  | cls => exact ⟨.cls, eq_of_fits_all rfl h⟩
  | ret => exact ⟨.ret, eq_of_fits_all rfl h⟩
  | jp => exact ⟨.jp _, word_of_op (opField_of_fits rfl rfl h)⟩
  | call => exact ⟨.call _, word_of_op (opField_of_fits rfl rfl h)⟩
  | ldI => exact ⟨.ldI _, word_of_op (opField_of_fits rfl rfl h)⟩
  | jpV0 => exact ⟨.jpV0 _, word_of_op (opField_of_fits rfl rfl h)⟩
  | seImm => exact ⟨.seImm _ _, word_of_op_xkk (opField_of_fits rfl rfl h)⟩
  | sneImm => exact ⟨.sneImm _ _, word_of_op_xkk (opField_of_fits rfl rfl h)⟩
  | ldImm => exact ⟨.ldImm _ _, word_of_op_xkk (opField_of_fits rfl rfl h)⟩
  | addImm => exact ⟨.addImm _ _, word_of_op_xkk (opField_of_fits rfl rfl h)⟩
  | rnd => exact ⟨.rnd _ _, word_of_op_xkk (opField_of_fits rfl rfl h)⟩
  | drw => exact ⟨.drw _ _ _, word_of_op_xyn (opField_of_fits rfl rfl h)⟩
  | seReg => exact ⟨.seReg _ _, word_of_fits_op_n rfl rfl h⟩
  | sneReg => exact ⟨.sneReg _ _, word_of_fits_op_n rfl rfl h⟩
  | ldReg => exact ⟨.ldReg _ _, word_of_fits_op_n rfl rfl h⟩
  | orReg => exact ⟨.orReg _ _, word_of_fits_op_n rfl rfl h⟩
  | andReg => exact ⟨.andReg _ _, word_of_fits_op_n rfl rfl h⟩
  | xorReg => exact ⟨.xorReg _ _, word_of_fits_op_n rfl rfl h⟩
  | addReg => exact ⟨.addReg _ _, word_of_fits_op_n rfl rfl h⟩
  | subReg => exact ⟨.subReg _ _, word_of_fits_op_n rfl rfl h⟩
  | shr => exact ⟨.shr _ _, word_of_fits_op_n rfl rfl h⟩
  | subnReg => exact ⟨.subnReg _ _, word_of_fits_op_n rfl rfl h⟩
  | shl => exact ⟨.shl _ _, word_of_fits_op_n rfl rfl h⟩
  | skp => exact ⟨.skp _, word_of_fits_op_kk rfl rfl h⟩
  | sknp => exact ⟨.sknp _, word_of_fits_op_kk rfl rfl h⟩
  | ldVxDt => exact ⟨.ldVxDt _, word_of_fits_op_kk rfl rfl h⟩
  | ldVxK => exact ⟨.ldVxK _, word_of_fits_op_kk rfl rfl h⟩
  | ldDtVx => exact ⟨.ldDtVx _, word_of_fits_op_kk rfl rfl h⟩
  | ldStVx => exact ⟨.ldStVx _, word_of_fits_op_kk rfl rfl h⟩
  | addIVx => exact ⟨.addIVx _, word_of_fits_op_kk rfl rfl h⟩
  | ldFVx => exact ⟨.ldFVx _, word_of_fits_op_kk rfl rfl h⟩
  | ldBVx => exact ⟨.ldBVx _, word_of_fits_op_kk rfl rfl h⟩
  | ldIVx => exact ⟨.ldIVx _, word_of_fits_op_kk rfl rfl h⟩
  | ldVxI => exact ⟨.ldVxI _, word_of_fits_op_kk rfl rfl h⟩

/-- The instructions the table's rows are listed by, in the table's order (R108). -/
def tableForms : List Instr :=
  [.cls, .ret, .jp 0, .call 0, .seImm 0 0, .sneImm 0 0, .seReg 0 0, .ldImm 0 0, .addImm 0 0,
   .ldReg 0 0, .orReg 0 0, .andReg 0 0, .xorReg 0 0, .addReg 0 0, .subReg 0 0, .shr 0 0, .subnReg 0 0, .shl 0 0,
   .sneReg 0 0, .ldI 0, .jpV0 0, .rnd 0 0, .drw 0 0 0, .skp 0, .sknp 0, .ldVxDt 0, .ldVxK 0, .ldDtVx 0, .ldStVx 0,
   .addIVx 0, .ldFVx 0, .ldBVx 0, .ldIVx 0, .ldVxI 0]

theorem opcodeTable_eq_map_row : opcodeTable = tableForms.map Instr.row := rfl

theorem exists_row_eq_of_mem {r : Row} (h : r ∈ opcodeTable) : ∃ i : Instr, i.row = r := by
  rw [opcodeTable_eq_map_row] at h
  obtain ⟨i, -, hi⟩ := List.mem_map.1 h
  exact ⟨i, hi⟩

/-- R117: a word that fits a row of the table does not decode to Invalid. -/
theorem exists_decode_of_fits {r : Row} {w : Word} (hr : r ∈ opcodeTable) (hw : r.fits w = true) :
    ∃ i, decode w = .instr i := by
  obtain ⟨i, rfl⟩ := exists_row_eq_of_mem hr
  obtain ⟨j, rfl⟩ := exists_encode_of_row_fits i hw
  exact ⟨j, decodeGivesBackTheEncodedInstruction j⟩

/-- A word decodes to Invalid exactly when it fits no row (R107, R117). -/
theorem decode_eq_invalid_iff_no_row_fits (w : Word) :
    decode w = .invalid w ↔ ∀ r ∈ opcodeTable, r.fits w = false := by
  constructor
  · intro h r hr
    refine Bool.eq_false_iff.2 fun hw => ?_
    obtain ⟨i, hi⟩ := exists_decode_of_fits hr hw
    rw [h] at hi
    cases hi
  · intro hno
    obtain hinv | ⟨i, hi, -⟩ := decode_faithful w
    · exact hinv
    · have hfits := row_fits_of_decode hi
      rw [hno _ (ownRow i).left] at hfits
      cases hfits

/-- Settles O3: the row of the decoded instruction fits its word and stands in the table, where no second row can fit; and
a word that fits some row is the word of an instruction of that row. -/
theorem decodeChoosesTheOneRowThatFits : Obligations.DecodeChoosesTheOneRowThatFits := by
  refine ⟨fun w i h => ?_, decode_eq_invalid_iff_no_row_fits⟩
  obtain ⟨hmem, -⟩ := ownRow i
  have hfits := row_fits_of_decode h
  exact ⟨hmem, hfits, fun r hr hrw => row_unique hr hmem hrw hfits⟩

/-! The invalid words (R107). -/

theorem decodeAlu_eq_invalid_iff (w : Word) :
    decodeAlu w = .invalid w ↔ nField w ∈ [0x8#4, 0x9#4, 0xA#4, 0xB#4, 0xC#4, 0xD#4, 0xF#4] := by
  obtain hn | hn | hn | hn | hn | hn | hn | hn | hn | hn | hn | hn | hn | hn | hn | hn := nibble_cases (nField w) <;>
    simp [decodeAlu, hn]

theorem decodeKey_eq_invalid_iff (w : Word) : decodeKey w = .invalid w ↔ kkField w ∉ [0x9E#8, 0xA1#8] := by
  unfold decodeKey
  split <;> simp_all

theorem decodeMisc_eq_invalid_iff (w : Word) : decodeMisc w = .invalid w ↔
    kkField w ∉ [0x07#8, 0x0A#8, 0x15#8, 0x18#8, 0x1E#8, 0x29#8, 0x33#8, 0x55#8, 0x65#8] := by
  unfold decodeMisc
  split <;> simp_all

/-- Settles O4: by the major opcode. Ten of them have no invalid word, under five the selecting field decides, and under 0x0
the whole word. -/
theorem invalidWordsAreTheListedOnes : Obligations.InvalidWordsAreTheListedOnes := by
  intro w
  refine ⟨fun w' => eq_of_decode_eq_invalid, ?_⟩
  obtain ho | ho | ho | ho | ho | ho | ho | ho | ho | ho | ho | ho | ho | ho | ho | ho := nibble_cases (opField w)
  · rw [decode_op0 w ho]; split <;> simp_all
  · simp [decode_op1 w ho, ho]
  · simp [decode_op2 w ho, ho]
  · simp [decode_op3 w ho, ho]
  · simp [decode_op4 w ho, ho]
  · simp [decode_op5 w ho, ho]
  · simp [decode_op6 w ho, ho]
  · simp [decode_op7 w ho, ho]
  · simp [decode_op8 w ho, ho, decodeAlu_eq_invalid_iff]
  · simp [decode_op9 w ho, ho]
  · simp [decode_opA w ho, ho]
  · simp [decode_opB w ho, ho]
  · simp [decode_opC w ho, ho]
  · simp [decode_opD w ho, ho]
  · simp [decode_opE w ho, ho, decodeKey_eq_invalid_iff]
  · simp [decode_opF w ho, ho, decodeMisc_eq_invalid_iff]

/-- Settles O5: each of the eight words is a closed term, and the decoder computes. -/
theorem writtenOutWordsDecode : Obligations.WrittenOutWordsDecode := by
  unfold Obligations.WrittenOutWordsDecode
  decide

end Sys2Proof
end

/-! Everything an instruction can do to the state, said once; the frames and the invariant follow from it. -/

section
namespace Sys2Proof.Machine

/-- Which error an instruction can raise, and when (60_exceptions.md R240, the "raised by" column). -/
inductive Raises (s : State) : Instr → StepError → Prop
  /-- E3: 2nnn at depth 16 (R133). -/
  | overflow (nnn : Addr12) (hsp : s.sp.val = 16) : Raises s (.call nnn) .stackOverflow
  /-- E4: 00EE at depth 0 (R131). -/
  | underflow (hsp : s.sp.val = 0) : Raises s .ret .stackUnderflow
  /-- E2: a memory transfer or a draw reports an address from I on that does not exist (R77). -/
  | outOfBounds {i : Instr} {a : Nat} (hsize : s.config.memSize ≤ a) (hbase : s.ea 0 ≤ a)
      (hi : i.row.mnemonic ∈ ["DRW", "LD_B_VX", "LD_I_VX", "LD_VX_I"]) : Raises s i (.outOfBounds a)

/-- The state a draw leaves: the screen with the sprite drawn, and VF with the collision (R201). -/
def State.drawn (s : State) (x y : Reg) (n : Nat) : State :=
  State.setReg { s with vid := (s.drawSprite x y n).vid } regVF (flagByte (s.drawSprite x y n).hit)

/-- The states an instruction can leave: the old one with the fields it owns written, or with an error as the result. -/
inductive Effect (s : State) : Instr → State → Prop
  | raises {i : Instr} {e : StepError} (hraise : Raises s i e) : Effect s i { s with result := .err e }
  | writesRegs {i : Instr} (v : Vector Byte 16)
      (hv : ∀ k, ¬ mayWriteReg i k → State.reg { s with v := v } k = s.reg k) : Effect s i { s with v := v }
  | writesPc {i : Instr} (pc : Word)
      (hi : i.row.mnemonic ∈ ["JP", "JP_V0", "SE_IMM", "SNE_IMM", "SE_REG", "SNE_REG", "SKP", "SKNP"]) :
      Effect s i { s with pc := pc }
  | writesStack {i : Instr} (pc : Word) (sp : Fin 17) (stack : Vector Word 16) (hi : i.row.mnemonic ∈ ["CALL", "RET"]) :
      Effect s i { s with pc := pc, sp := sp, stack := stack }
  | writesI {i : Instr} (w : Word) (hi : i.row.mnemonic ∈ ["LD_I", "ADD_I_VX", "LD_F_VX"]) : Effect s i { s with i := w }
  | writesDt (x : Reg) : Effect s (.ldDtVx x) { s with dt := s.reg x }
  | writesSt (x : Reg) : Effect s (.ldStVx x) { s with st := s.reg x }
  | blocks (x : Reg) (hkey : s.key = 0x0000#16) : Effect s (.ldVxK x) { s with
      pc := s.pc - 2#16
      dt := if s.config.waitTimerTick then s.dt else s.dtStart
      st := if s.config.waitTimerTick then s.st else s.stStart }
  | storesDigits (x : Reg) (hin : s.ea 0 + 3 ≤ s.config.memSize) :
      Effect s (.ldBVx x) { s with mem := s.mem.writeBlock (s.ea 0) (decimalDigits (s.reg x)) }
  | storesRegs (x : Reg) (hin : s.ea 0 + (x.toNat + 1) ≤ s.config.memSize) :
      Effect s (.ldIVx x) { s with mem := s.mem.writeBlock (s.ea 0) (s.regsUpTo x) }
  | clears : Effect s .cls { s with vid := blankVideo }
  | draws (x y : Reg) (n : Nibble) : Effect s (.drw x y n) (s.drawn x y n.toNat)

/-! The shared operations as effects. -/

theorem effect_setReg {s : State} {i : Instr} {x : Reg} (b : Byte) (hx : mayWriteReg i x) : Effect s i (s.setReg x b) :=
  .writesRegs _ fun k hk => s.reg_setReg_ne x k b fun e => hk (e ▸ hx)

theorem effect_setFlagThenReg {s : State} {i : Instr} {x : Reg} (f b : Byte) (hx : mayWriteReg i x)
    (hvf : mayWriteReg i regVF) : Effect s i (s.setFlagThenReg f x b) := by
  refine .writesRegs _ fun k hk => ?_
  have hkx : k ≠ x := fun e => hk (e ▸ hx)
  have hkf : k ≠ regVF := fun e => hk (e ▸ hvf)
  exact (s.reg_setFlagThenReg f x k b).trans (by rw [if_neg hkx, if_neg hkf])

theorem effect_skipIf {s : State} {i : Instr} (c : Bool)
    (hi : i.row.mnemonic ∈ ["JP", "JP_V0", "SE_IMM", "SNE_IMM", "SE_REG", "SNE_REG", "SKP", "SKNP"]) :
    Effect s i (s.skipIf c) := by
  rw [s.skipIf_eq c]
  exact .writesPc _ hi

theorem effect_loadRegs (s : State) (x : Reg) : Effect s (.ldVxI x) (s.loadRegs (x.toNat + 1)) := by
  rw [s.loadRegs_eq]
  refine .writesRegs _ fun k hk => ?_
  rw [← s.loadRegs_eq, s.reg_loadRegs _ (by omega) k, if_neg (by simpa [mayWriteReg, Nat.lt_succ_iff] using hk)]

theorem effect_blockOnKey {s : State} (x : Reg) (hkey : s.key = 0x0000#16) : Effect s (.ldVxK x) s.blockOnKey := by
  rw [s.blockOnKey_eq]
  exact .blocks x hkey

/-! The outcomes an instruction can have. -/

/-- Whatever state the outcome answers, instruction i can leave it. -/
def HasEffect (s : State) (i : Instr) (o : Outcome) : Prop := ∀ t, o = .next t → Effect s i t

theorem hasEffect_next {s t : State} {i : Instr} (h : Effect s i t) : HasEffect s i (.next t) := by
  rintro _ ⟨⟩
  exact h

/-- R77: a checked access from I on answers its effect where every address exists, and raises otherwise. -/
theorem hasEffect_checked {s t : State} {i : Instr} {n : Nat}
    (hi : i.row.mnemonic ∈ ["DRW", "LD_B_VX", "LD_I_VX", "LD_VX_I"])
    (h : n = 0 ∨ s.ea 0 + n ≤ s.config.memSize → Effect s i t) : HasEffect s i (checked s (s.ea 0) n t) := by
  intro u hu
  obtain ⟨hin, rfl⟩ | ⟨-, rfl⟩ := checked_cases hu
  · exact h hin
  · exact .raises (.outOfBounds (Nat.le_max_right _ _) (Nat.le_max_left _ _) hi)

theorem hasEffect_ret (s : State) : HasEffect s .ret (execRet s) := by
  obtain h0 | hpos := Nat.eq_zero_or_pos s.sp.val
  · rw [execRet, s.pop_of_zero h0]
    exact hasEffect_next (.raises (.underflow h0))
  · rw [execRet, s.pop_of_pos hpos]
    exact hasEffect_next (.writesStack _ _ _ (by simp [Instr.row]))

theorem hasEffect_call (nnn : Addr12) (s : State) : HasEffect s (.call nnn) (execCall nnn s) := by
  obtain hlt | hfull := Nat.lt_or_eq_of_le (Nat.le_of_lt_succ s.sp.isLt)
  · rw [execCall, s.push_of_lt _ hlt]
    exact hasEffect_next (.writesStack _ _ _ (by simp [Instr.row]))
  · rw [execCall, s.push_of_full _ hfull]
    exact hasEffect_next (.raises (.overflow nnn hfull))

theorem hasEffect_ldVxK (x : Reg) (s : State) : HasEffect s (.ldVxK x) (execLdVxK x s) := by
  refine hasEffect_next ?_
  split
  · exact effect_blockOnKey x ‹_›
  · exact effect_setReg _ rfl

/-- Every instruction's outcome, in the groups of the opcode map. -/
theorem exec_hasEffect (i : Instr) (s : State) : HasEffect s i (exec i s) := by
  cases i with
  | cls => exact hasEffect_next .clears
  | ret => exact hasEffect_ret s
  | call nnn => exact hasEffect_call nnn s
  | jp | jpV0 => exact hasEffect_next (.writesPc _ (by simp [Instr.row]))
  | seImm | sneImm | seReg | sneReg | skp | sknp => exact hasEffect_next (effect_skipIf _ (by simp [Instr.row]))
  | ldImm | addImm | ldReg | orReg | andReg | xorReg | rnd | ldVxDt => exact hasEffect_next (effect_setReg _ rfl)
  | addReg | subReg | shr | subnReg | shl =>
    exact hasEffect_next (effect_setFlagThenReg _ _ (.inl rfl) (.inr rfl))
  | ldI | addIVx | ldFVx => exact hasEffect_next (.writesI _ (by simp [Instr.row]))
  | drw x y n => exact hasEffect_checked (by simp [Instr.row]) fun _ => .draws x y n
  | ldVxK x => exact hasEffect_ldVxK x s
  | ldDtVx x => exact hasEffect_next (.writesDt x)
  | ldStVx x => exact hasEffect_next (.writesSt x)
  | ldBVx x =>
    exact hasEffect_checked (by simp [Instr.row]) fun hin => .storesDigits x (hin.resolve_left (by decide))
  | ldIVx x =>
    exact hasEffect_checked (by simp [Instr.row]) fun hin => .storesRegs x (hin.resolve_left (Nat.succ_ne_zero _))
  | ldVxI x => exact hasEffect_checked (by simp [Instr.row]) fun _ => effect_loadRegs s x

theorem exec_effect {i : Instr} {s t : State} (h : exec i s = .next t) : Effect s i t := exec_hasEffect i s t h

/-! Frames over all instructions (10_state.md, 20_memory.md, 40_control_flow.md, 60_exceptions.md). -/

/-- Settles O20: the effects that write registers write those of the table of R33, and a draw writes VF alone. -/
theorem onlyTheTablesRegistersAreWritten : Obligations.OnlyTheTablesRegistersAreWritten := by
  intro i s t k h hk
  cases exec_effect h with
  | writesRegs v hv => exact hv k hk
  | draws x y n => exact State.reg_setReg_ne _ regVF k _ hk
  | _ => rfl

/-- Settles O21: of the effects, one writes I, and its instructions are the three. -/
theorem onlyThreeInstructionsWriteI : Obligations.OnlyThreeInstructionsWriteI := by
  intro i s t h hi
  cases exec_effect h with
  | writesI w hmem => exact absurd hmem hi
  | _ => rfl

theorem exec_keeps_pc {i : Instr} {s t : State} (h : exec i s = .next t)
    (hi : i.row.mnemonic ∉ ["RET", "JP", "CALL", "JP_V0", "SE_IMM", "SNE_IMM", "SE_REG", "SNE_REG", "SKP", "SKNP"])
    (hkey : i.row.mnemonic = "LD_VX_K" → s.key ≠ 0x0000#16) : t.pc = s.pc := by
  cases exec_effect h with
  | writesPc pc hmem => simp_all
  | writesStack pc sp stack hmem => simp_all
  | blocks x h0 => exact absurd h0 (hkey rfl)
  | _ => rfl

theorem exec_keeps_stack {i : Instr} {s t : State} (h : exec i s = .next t) (hi : i.row.mnemonic ∉ ["CALL", "RET"]) :
    t.sp = s.sp ∧ t.stack = s.stack := by
  cases exec_effect h with
  | writesStack pc sp stack hmem => exact absurd hmem hi
  | _ => exact ⟨rfl, rfl⟩

/-- Settles O24: of the effects, the clear and the draw write video memory. -/
theorem onlyDisplayInstructionsWriteVideo : Obligations.OnlyDisplayInstructionsWriteVideo := by
  intro i s t h hi
  cases exec_effect h with
  | clears => simp [Instr.row] at hi
  | draws x y n => simp [Instr.row] at hi
  | _ => rfl

theorem Instr.not_mem_of_mnemonic_eq_ldVxK {i : Instr} (h : i.row.mnemonic = "LD_VX_K") :
    i.row.mnemonic ∉ ["RET", "JP", "CALL", "JP_V0", "SE_IMM", "SNE_IMM", "SE_REG", "SNE_REG", "SKP", "SKNP"] := by
  rw [h]
  decide

/-- Settles O22: PC is written by the effects of the jumps, the skips, call and return, and a blocked Fx0A. -/
theorem onlyControlTransfersWritePcAndStack : Obligations.OnlyControlTransfersWritePcAndStack := by
  intro i s t h
  refine ⟨fun hi => ?_, fun hi hkey => ?_, exec_keeps_stack h⟩
  · exact exec_keeps_pc h (by simp_all) (by simp_all)
  · exact exec_keeps_pc h (Instr.not_mem_of_mnemonic_eq_ldVxK hi) fun _ => hkey

/-- Settles O23: the two stores write their block from I on, and a block write leaves every address outside it alone. -/
theorem onlyStoresWriteMainMemory : Obligations.OnlyStoresWriteMainMemory := by
  intro i s t h a hdigits hregs
  cases exec_effect h with
  | storesDigits x hin => exact Memory.read_writeBlock_outside _ _ _ _ (hdigits x rfl)
  | storesRegs x hin =>
    refine Memory.read_writeBlock_outside _ _ _ _ ?_
    rw [length_regsUpTo]
    exact hregs x rfl
  | _ => rfl

/-- No instruction writes the parameters or the fields that serve the cycle. -/
theorem exec_keeps_bookkeeping {i : Instr} {s t : State} (h : exec i s = .next t) :
    t.config = s.config ∧ t.inputs = s.inputs ∧ t.stepNo = s.stepNo ∧ t.dtStart = s.dtStart ∧ t.stStart = s.stStart := by
  cases exec_effect h <;> exact ⟨rfl, rfl, rfl, rfl, rfl⟩

/-- Settles O25: the timers by the lemmas of O9, the rest by the effects. -/
theorem onlyTimerInstructionsWriteTimers : Obligations.OnlyTimerInstructionsWriteTimers := by
  intro i s t h
  refine ⟨exec_keeps_dt h, exec_keeps_st h, fun hi hkeep => ?_, exec_keeps_bookkeeping h⟩
  obtain ⟨x, rfl⟩ := Instr.eq_ldVxK_of_mnemonic hi
  exact keepsTimers_ldVxK x hkeep t h

/-! The invariant (20_memory.md sections 2 and 4). -/

theorem exec_keeps_inv {i : Instr} {s t : State} (h : exec i s = .next t) (hinv : s.Inv) : t.Inv := by
  obtain ⟨hcfg, hmem, hvid⟩ := hinv
  cases exec_effect h with
  | storesDigits x hin => exact ⟨hcfg, Memory.wf_writeBlock _ _ _ _ hmem hin, hvid⟩
  | storesRegs x hin => exact ⟨hcfg, Memory.wf_writeBlock _ _ _ _ hmem (by rwa [length_regsUpTo]), hvid⟩
  | clears => exact ⟨hcfg, hmem, Memory.wf_nil 256⟩
  | draws x y n => exact ⟨hcfg, hmem, Canvas.plotSprite_wf _ _ _ _ hvid⟩
  | _ => exact ⟨hcfg, hmem, hvid⟩

/-- Settles O17: a failed fetch and an invalid word leave both memories and the parameters; an instruction runs in
`State.enter`, which has them too, and writes either memory only inside its bounds and in canonical form. -/
theorem everyStepKeepsTheInvariant : Obligations.EveryStepKeepsTheInvariant := by
  intro s u hinv hstep
  obtain ⟨a, -, rfl⟩ | ⟨ir, w, -, -, rfl⟩ | ⟨ir, i, t, -, -, hexec, rfl⟩ := step_cases hstep
  · exact hinv
  · exact hinv
  · have hleft : t.Inv := exec_keeps_inv hexec hinv
    exact hleft

/-- Settles O14: no instruction writes the three fields, and the end of every step is `State.finish`. -/
theorem aStepUsesOneInputAndKeepsTheParameters : Obligations.AStepUsesOneInputAndKeepsTheParameters := by
  intro s u hstep
  obtain ⟨a, -, rfl⟩ | ⟨ir, w, -, -, rfl⟩ | ⟨ir, i, t, -, -, hexec, rfl⟩ := step_cases hstep
  · exact ⟨rfl, rfl, rfl⟩
  · exact ⟨rfl, rfl, rfl⟩
  · obtain ⟨hcfg, hin, hno, -, -⟩ := exec_keeps_bookkeeping hexec
    exact ⟨hcfg, congrArg List.tail hin, congrArg (· + 1) hno⟩

/-- Settles O18: by induction on the number of steps, each by O17 and O14. -/
theorem anOkRunKeepsTheInvariant : Obligations.AnOkRunKeepsTheInvariant := by
  intro k
  induction k with
  | zero =>
    rintro s t hinv rfl
    exact ⟨hinv, rfl, rfl, rfl⟩
  | succ k ih =>
    rintro s t hinv ⟨u, ⟨hstep, -⟩, hrun⟩
    obtain ⟨hcfg, hin, hno⟩ := aStepUsesOneInputAndKeepsTheParameters s u hstep
    obtain ⟨hinv', hcfg', hin', hno'⟩ := ih u t (everyStepKeepsTheInvariant s u hinv hstep) hrun
    refine ⟨hinv', hcfg'.trans hcfg, ?_, by omega⟩
    rw [hin', hin, List.drop_tail]

/-! Completion and errors (60_exceptions.md sections 1 and 2). -/

theorem checked_completes (s : State) (base n : Nat) (t : State) : ∃ u, checked s base n t = .next u := by
  unfold checked
  split
  · exact ⟨_, raise_eq _ s⟩
  · exact ⟨t, rfl⟩

theorem execRet_completes (s : State) : ∃ t, execRet s = .next t := by
  unfold execRet
  split
  · exact ⟨_, raise_eq _ s⟩
  · exact ⟨_, rfl⟩

theorem execCall_completes (nnn : Addr12) (s : State) : ∃ t, execCall nnn s = .next t := by
  unfold execCall
  split
  · exact ⟨_, raise_eq _ s⟩
  · exact ⟨_, rfl⟩

/-- No instruction faults and none is refused. -/
theorem exec_completes (i : Instr) (s : State) : ∃ t, exec i s = .next t := by
  cases i with
  | ret => exact execRet_completes s
  | call nnn => exact execCall_completes nnn s
  | drw | ldBVx | ldIVx | ldVxI => exact checked_completes s _ _ _
  | _ => exact ⟨_, rfl⟩

/-- Settles O10: a failed fetch and an invalid word end in a next state, and so does every instruction. -/
theorem everyStepCompletes : Obligations.EveryStepCompletes := by
  intro s
  cases hf : fetch s with
  | error a => exact ⟨_, step_of_fetch_error s a hf⟩
  | ok w =>
    cases hd : decode w with
    | invalid w' => exact ⟨_, step_of_invalid s w w' hf hd⟩
    | instr i =>
      obtain ⟨t, ht⟩ := exec_completes i s.enter
      exact ⟨_, step_of_exec hf hd ht⟩

/-- An instruction begun with the result Ok that ends with an error has raised it and changed nothing else. -/
theorem effect_err {i : Instr} {s t : State} {e : StepError} (h : Effect s i t) (hok : s.result = .ok)
    (herr : t.result = .err e) : Raises s i e ∧ t = { s with result := .err e } := by
  cases h with
  | raises hraise =>
    cases herr
    exact ⟨hraise, rfl⟩
  | _ => cases hok.symm.trans herr

/-- What a step that returned an error can have been: a failed fetch, an invalid word, or an instruction that raised. -/
theorem step_err_cases {s u : State} {e : StepError} (h : StepReturns s (.err e) u) :
    (∃ a, fetch s = .error a ∧ e = .outOfBounds a ∧ u = State.finish { s.start with result := .err e }) ∨
    (∃ w, fetch s = .ok w ∧ decode w = .invalid w ∧ e = .invalidInstruction w s.pc ∧
      u = State.finish { s.enter with result := .err e }) ∨
    (∃ w i, fetch s = .ok w ∧ decode w = .instr i ∧ Raises s.enter i e ∧
      u = State.finish { s.enter with result := .err e }) := by
  obtain ⟨hstep, herr⟩ := h
  obtain ⟨a, hf, rfl⟩ | ⟨w, w', hf, hd, rfl⟩ | ⟨w, i, t, hf, hd, hexec, rfl⟩ := step_cases hstep
  · cases herr
    exact .inl ⟨a, hf, rfl, rfl⟩
  · cases herr
    obtain rfl := eq_of_decode_eq_invalid hd
    exact .inr (.inl ⟨w', hf, hd, rfl, rfl⟩)
  · obtain ⟨hraise, rfl⟩ := effect_err (exec_effect hexec) s.enter_result herr
    exact .inr (.inr ⟨w, i, hf, hd, hraise, rfl⟩)

/-- The tick as the statements write it (R248). -/
theorem tickByte_eq_ofNat (t : Byte) : tickByte t = BitVec.ofNat 8 (t.toNat - 1) := by
  rw [← tickByte_toNat, BitVec.ofNat_toNat, BitVec.setWidth_eq]

/-- The state an instruction runs in, written out (R113, R115, R116). -/
theorem State.enter_eq (s : State) : s.enter = { s with
    pc := s.pc + 2#16
    dt := BitVec.ofNat 8 (s.dt.toNat - 1)
    st := BitVec.ofNat 8 (s.st.toNat - 1)
    result := .ok
    dtStart := s.dt
    stStart := s.st } := by
  simp only [← tickByte_eq_ofNat]
  rfl

theorem le_memSize_of_fetch_ok {s : State} {w : Word} (h : fetch s = .ok w) : s.pc.toNat + 2 ≤ s.config.memSize :=
  ((fetch_eq_ok_iff s w).1 h).left

theorem memSize_lt_of_fetch_error {s : State} {a : Nat} (h : fetch s = .error a) :
    s.config.memSize < s.pc.toNat + 2 := by
  by_contra hin
  rw [fetch_of_inBounds s (by omega)] at h
  cases h

/-- Settles O11: after a failed fetch the state is the old one; after an invalid word, and after an instruction that
raised, it is `State.enter`. Both apart from the result and the end of the step. -/
theorem anErrorLeavesOnlyTheCompletedSubSteps : Obligations.AnErrorLeavesOnlyTheCompletedSubSteps := by
  intro s u e h
  have hcases : (s.config.memSize < s.pc.toNat + 2 ∧ u = State.finish { s.start with result := .err e }) ∨
      (s.pc.toNat + 2 ≤ s.config.memSize ∧ u = State.finish { s.enter with result := .err e }) := by
    obtain ⟨a, hf, -, hu⟩ | ⟨w, hf, -, -, hu⟩ | ⟨w, i, hf, -, -, hu⟩ := step_err_cases h
    · exact .inl ⟨memSize_lt_of_fetch_error hf, hu⟩
    · exact .inr ⟨le_memSize_of_fetch_ok hf, hu⟩
    · exact .inr ⟨le_memSize_of_fetch_ok hf, hu⟩
  obtain ⟨hout, rfl⟩ | ⟨hin, rfl⟩ := hcases
  · exact ⟨fun _ => rfl, fun hin => absurd hin (by omega)⟩
  · refine ⟨fun hout => absurd hout (by omega), fun _ => ?_⟩
    rw [s.enter_eq]
    rfl

/-- Settles O12: by what the step was; an instruction's errors are those of `Raises`. -/
theorem eachErrorHasItsCause : Obligations.EachErrorHasItsCause := by
  intro s u e h
  obtain ⟨a, hf, rfl, -⟩ | ⟨w, hf, hd, rfl, -⟩ | ⟨w, i, hf, hd, hraise, -⟩ := step_err_cases h
  · refine ⟨?_, .inl hf⟩
    rw [fetch_of_outOfBounds s (memSize_lt_of_fetch_error hf)] at hf
    cases hf
    exact Nat.le_max_right _ _
  · exact ⟨hf, hd, rfl⟩
  · cases hraise with
    | overflow nnn hsp => exact ⟨hsp, w, nnn, hf, hd⟩
    | underflow hsp => exact ⟨hsp, w, hf, hd⟩
    | outOfBounds hsize hbase hi => exact ⟨hsize, .inr ⟨w, i, hf, hd, hbase, hi⟩⟩

end Sys2Proof.Machine
end

/-! What an instruction does not read: the inputs, the step's number and ST (10_state.md sections 6 and 8). -/

section
namespace Sys2Proof.Machine

/-! The instructions that read an input, as one write each (R146, R147, R163). -/

theorem exec_skp (x : Reg) (s : State) : exec (.skp x) s = .next (s.skipIf (pressed s.key (s.reg x))) := rfl

theorem exec_sknp (x : Reg) (s : State) : exec (.sknp x) s = .next (s.skipIf (!pressed s.key (s.reg x))) := rfl

theorem exec_rnd (x : Reg) (kk : Byte) (s : State) : exec (.rnd x kk) s = .next (s.setReg x (s.rand &&& kk)) := rfl

/-- The state with ST, the lined-up inputs and the step's number put through three maps, and every other field as it is. -/
def State.mapHidden (g : Byte → Byte) (p : List StepInput → List StepInput) (q : Nat → Nat) (s : State) : State :=
  { s with st := g s.st, inputs := p s.inputs, stepNo := q s.stepNo }

/-- An outcome with its next state put through f. -/
def mapOutcome (f : State → State) (o : Outcome) : Outcome :=
  match o with
  | .next t => .next (f t)
  | .fault r => .fault r
  | .refused r => .refused r

/-- The instructions that set ST: Fx18 (R223), and Fx0A blocked with WAIT_TIMER_TICK = false (R221). -/
def SetsSt (s : State) (i : Instr) : Prop :=
  (∃ x, i = .ldStVx x) ∨ ((∃ x, i = .ldVxK x) ∧ s.key = 0x0000#16 ∧ s.config.waitTimerTick = false)

section
variable (g : Byte → Byte) (p : List StepInput → List StepInput) (q : Nat → Nat) (s : State)

theorem skipIf_mapHidden (c : Bool) : (s.mapHidden g p q).skipIf c = (s.skipIf c).mapHidden g p q := by
  cases c <;> rfl

theorem loadRegs_mapHidden (n : Nat) : (s.mapHidden g p q).loadRegs n = (s.loadRegs n).mapHidden g p q := by
  induction n with
  | zero => rfl
  | succ n ih =>
    rw [State.loadRegs_succ, State.loadRegs_succ, ih]
    rfl

theorem checked_mapHidden (base n : Nat) (t : State) :
    checked (s.mapHidden g p q) base n (t.mapHidden g p q) = mapOutcome (State.mapHidden g p q) (checked s base n t) := by
  by_cases h : n = 0 ∨ base + n ≤ s.config.memSize
  · rw [checked_of_inBounds s t base n h, checked_of_inBounds (s.mapHidden g p q) _ base n h]
    rfl
  · rw [checked_of_outOfBounds s t base n h, checked_of_outOfBounds (s.mapHidden g p q) _ base n h]
    rfl

theorem execRet_mapHidden : execRet (s.mapHidden g p q) = mapOutcome (State.mapHidden g p q) (execRet s) := by
  obtain h0 | hpos := Nat.eq_zero_or_pos s.sp.val
  · rw [execRet, execRet, s.pop_of_zero h0, (s.mapHidden g p q).pop_of_zero h0]
    rfl
  · rw [execRet, execRet, s.pop_of_pos hpos, (s.mapHidden g p q).pop_of_pos hpos]
    rfl

theorem execCall_mapHidden (nnn : Addr12) :
    execCall nnn (s.mapHidden g p q) = mapOutcome (State.mapHidden g p q) (execCall nnn s) := by
  obtain hlt | hfull := Nat.lt_or_eq_of_le (Nat.le_of_lt_succ s.sp.isLt)
  · rw [execCall, execCall, s.push_of_lt _ hlt, (s.mapHidden g p q).push_of_lt _ hlt]
    rfl
  · rw [execCall, execCall, s.push_of_full _ hfull, (s.mapHidden g p q).push_of_full _ hfull]
    rfl

theorem reg_mapHidden (x : Reg) : (s.mapHidden g p q).reg x = s.reg x := rfl

theorem exec_skp_mapHidden (x : Reg) (hkey : (s.mapHidden g p q).key = s.key) :
    exec (.skp x) (s.mapHidden g p q) = mapOutcome (State.mapHidden g p q) (exec (.skp x) s) := by
  rw [exec_skp, exec_skp, hkey, reg_mapHidden, skipIf_mapHidden]
  rfl

theorem exec_sknp_mapHidden (x : Reg) (hkey : (s.mapHidden g p q).key = s.key) :
    exec (.sknp x) (s.mapHidden g p q) = mapOutcome (State.mapHidden g p q) (exec (.sknp x) s) := by
  rw [exec_sknp, exec_sknp, hkey, reg_mapHidden, skipIf_mapHidden]
  rfl

theorem exec_ldVxK_mapHidden (x : Reg) (hkey : (s.mapHidden g p q).key = s.key) (hg : SetsSt s (.ldVxK x) → g = id) :
    exec (.ldVxK x) (s.mapHidden g p q) = mapOutcome (State.mapHidden g p q) (exec (.ldVxK x) s) := by
  by_cases h0 : s.key = 0x0000#16
  · rw [exec_ldVxK_of_no_key x h0, exec_ldVxK_of_no_key x (hkey.trans h0), State.blockOnKey_eq, State.blockOnKey_eq]
    cases hwait : s.config.waitTimerTick with
    | true => simp [mapOutcome, State.mapHidden, hwait]
    | false =>
      obtain rfl := hg (.inr ⟨⟨x, rfl⟩, h0, hwait⟩)
      simp [mapOutcome, State.mapHidden, hwait]
  · rw [exec_ldVxK_of_key x h0, exec_ldVxK_of_key x (hkey ▸ h0), hkey]
    rfl

theorem exec_rnd_mapHidden (x : Reg) (kk : Byte) (hrand : (s.mapHidden g p q).rand = s.rand) :
    exec (.rnd x kk) (s.mapHidden g p q) = mapOutcome (State.mapHidden g p q) (exec (.rnd x kk) s) := by
  rw [exec_rnd, exec_rnd, hrand]
  rfl

/-- An instruction runs the same with other hidden fields: KEY matters to three forms only, RAND to one, and ST is put
through g as it was, unless the instruction sets it. -/
theorem exec_mapHidden (i : Instr)
    (hkey : i.row.mnemonic ∈ ["SKP", "SKNP", "LD_VX_K"] → (s.mapHidden g p q).key = s.key)
    (hrand : i.row.mnemonic = "RND" → (s.mapHidden g p q).rand = s.rand) (hg : SetsSt s i → g = id) :
    exec i (s.mapHidden g p q) = mapOutcome (State.mapHidden g p q) (exec i s) := by
  cases i with
  | ret => exact execRet_mapHidden g p q s
  | call nnn => exact execCall_mapHidden g p q s nnn
  | seImm | sneImm | seReg | sneReg => exact congrArg Host.Outcome.next (skipIf_mapHidden g p q s _)
  | skp x => exact exec_skp_mapHidden g p q s x (hkey (by simp [Instr.row]))
  | sknp x => exact exec_sknp_mapHidden g p q s x (hkey (by simp [Instr.row]))
  | ldVxK x => exact exec_ldVxK_mapHidden g p q s x (hkey (by simp [Instr.row])) hg
  | rnd x kk => exact exec_rnd_mapHidden g p q s x kk (hrand rfl)
  | ldStVx x =>
    obtain rfl := hg (.inl ⟨x, rfl⟩)
    rfl
  | drw x y n => exact checked_mapHidden g p q s _ _ (s.drawn x y n.toNat)
  | ldBVx x => exact checked_mapHidden g p q s _ _ { s with mem := s.mem.writeBlock (s.ea 0) (decimalDigits (s.reg x)) }
  | ldIVx x => exact checked_mapHidden g p q s _ _ { s with mem := s.mem.writeBlock (s.ea 0) (s.regsUpTo x) }
  | ldVxI x =>
    refine Eq.trans ?_ (checked_mapHidden g p q s _ _ _)
    rw [← loadRegs_mapHidden]
    rfl
  | _ => rfl

end

/-- Settles O26: other inputs and another step number are other hidden fields, with ST as it is. -/
theorem onlyFourInstructionsReadTheInputs : Obligations.OnlyFourInstructionsReadTheInputs := by
  intro i s t ins n h hkey hrand
  have hrun := exec_mapHidden id (fun _ => ins) (fun _ => n) s i hkey hrand fun _ => rfl
  rw [h] at hrun
  exact hrun

theorem Instr.eq_ldStVx_of_mnemonic {i : Instr} (h : i.row.mnemonic = "LD_ST_VX") : ∃ x, i = .ldStVx x := by
  cases i with
  | ldStVx x => exact ⟨x, rfl⟩
  | _ => simp [Instr.row] at h

/-- An instruction that sets ST leaves the same state whatever ST was. -/
theorem exec_of_setsSt {i : Instr} {s t : State} (b : Byte) (hset : SetsSt s i) (h : exec i s = .next t) :
    exec i { s with st := b } = .next t := by
  obtain ⟨x, rfl⟩ | ⟨⟨x, rfl⟩, hkey, hwait⟩ := hset
  · exact h
  · rw [exec_ldVxK_of_no_key x hkey, State.blockOnKey_eq] at h
    rw [exec_ldVxK_of_no_key x (s := { s with st := b }) hkey, State.blockOnKey_eq, ← h]
    simp [hwait]

theorem exec_of_not_setsSt {i : Instr} {s t : State} (b : Byte) (hset : ¬ SetsSt s i) (h : exec i s = .next t) :
    exec i { s with st := b } = .next { t with st := b } := by
  have hrun := exec_mapHidden (fun _ => b) id id s i (fun _ => rfl) (fun _ => rfl) fun hs => absurd hs hset
  rw [h] at hrun
  exact hrun

/-- Settles O27: where the instruction sets ST the outcome is the same state, and otherwise ST is a hidden field that keeps
its other value. -/
theorem noInstructionReadsSt : Obligations.NoInstructionReadsSt := by
  intro i s t b h
  by_cases hset : SetsSt s i
  · refine ⟨t.st, exec_of_setsSt b hset h, fun hi => ?_, fun _ => rfl, fun hi hkeep => ?_, fun _ _ _ => rfl⟩
    · obtain ⟨x, rfl⟩ | ⟨⟨x, rfl⟩, -, -⟩ := hset <;> simp [Instr.row] at hi
    · obtain ⟨x, rfl⟩ | ⟨-, hkey, hwait⟩ := hset
      · simp [Instr.row] at hi
      · simp [hkey, hwait] at hkeep
  · refine ⟨b, exec_of_not_setsSt b hset h, fun _ => rfl, fun hi => ?_, fun _ _ => rfl, fun hi hkey hwait => ?_⟩
    · exact absurd (.inl (Instr.eq_ldStVx_of_mnemonic hi)) hset
    · exact absurd (.inr ⟨Instr.eq_ldVxK_of_mnemonic hi, hkey, hwait⟩) hset

/-- Settles O13: a step sets the result and both start values before anything reads them. -/
theorem aPastErrorLeavesNoTrace : Obligations.APastErrorLeavesNoTrace := by
  intro s r d t
  rfl

end Sys2Proof.Machine
end

/-! Proofs for the instruction cycle, reset and boot (30_encoding.md section 6, 70_reset_and_hazards.md). -/

section
namespace Sys2Proof.Machine

/-- Settles O6: the fetched word is the two bytes at PC, and `State.enter` is the state the statement writes out. -/
theorem stepRunsTheDecodedInstruction : Obligations.StepRunsTheDecodedInstruction := by
  intro s i hin hdec
  refine ⟨?_, fun t => rfl⟩
  rw [step_of_instr s _ i (fetch_of_inBounds s hin) hdec, s.enter_eq]

theorem step_of_outOfBounds {s : State} {a : Nat} (hb : s.config.memSize < s.pc.toNat + 2)
    (ha : max s.pc.toNat s.config.memSize = a) :
    step s = .next (State.finish { s.start with result := .err (.outOfBounds a) }) := by
  rw [step_of_fetch_error s _ (fetch_of_outOfBounds s hb), ha]

/-- Settles O7: in bounds the word is big-endian; out of bounds the lowest failing address is PC or PC + 1, and the step
ends in `State.start`. -/
theorem fetchReadsBigEndianOrRaises : Obligations.FetchReadsBigEndianOrRaises := by
  intro s
  refine ⟨fun hin => ⟨_, fetch_of_inBounds s hin, wordOfBytes_toNat _ _⟩, fun hout => ?_, fun hlt hout => ?_⟩
  · exact step_of_outOfBounds (by omega) (Nat.max_eq_left hout)
  · exact step_of_outOfBounds (by omega) (by omega)

/-- Settles O8: a word that fits no row decodes to Invalid (O3), and the step ends in `State.enter`. -/
theorem invalidWordIsReportedWithItsAddress : Obligations.InvalidWordIsReportedWithItsAddress := by
  intro s w hf hno
  rw [step_of_invalid s w w hf ((decode_eq_invalid_iff_no_row_fits w).2 hno), s.enter_eq]
  rfl

/-- Settles O15: the register file and the stack are constant vectors, both memories are empty, the rest are literals. -/
theorem resetLeavesTheListedValues : Obligations.ResetLeavesTheListedValues := by
  have hreg (x : Reg) : State.reset.reg x = 0x00#8 := Vector.getElem_replicate x.isLt
  have hstack (k : Fin 16) : State.reset.stack[k] = 0x0000#16 := Vector.getElem_replicate k.isLt
  exact ⟨hreg, rfl, rfl, rfl, hstack, rfl, rfl, Memory.read_nil, Memory.read_nil, rfl, rfl⟩

theorem resetWith_inv {c : Config} (hc : c.WellFormed) : (State.resetWith c).Inv :=
  ⟨hc, Memory.wf_nil _, Memory.wf_nil _⟩

/-- Settles O16: the default parameters are within their bounds, and empty memories are canonical. -/
theorem invariantHoldsAtReset : Obligations.InvariantHoldsAtReset :=
  resetWith_inv (c := Config.default) (by decide)

/-! Booting (R283 to R285). -/

/-- The memory that boot leaves. -/
def bootMemory (font rom : List Byte) : Memory := (Memory.writeBlock [] fontBase font).writeBlock programBase rom

theorem boot_eq_some {c : Config} {font rom : List Byte} (hfont : FontWellFormed font) (hrom : RomFits c rom) :
    State.boot c font rom = some { State.resetWith c with mem := bootMemory font rom } :=
  if_pos ⟨hfont, hrom⟩

theorem read_bootMemory_rom (font rom : List Byte) (k : Nat) (hk : k < rom.length) :
    (bootMemory font rom).read (0x200 + k) = rom[k] :=
  Memory.read_writeBlock_inside rom _ 0x200 k hk (Memory.pairwise_writeBlock _ _ _ List.Pairwise.nil)

/-- The ROM is loaded after the font and does not reach down to it. -/
theorem read_bootMemory_font (font rom : List Byte) (k : Nat) (hk : k < font.length) (hlow : k < 0x200) :
    (bootMemory font rom).read k = font[k] := by
  have hinside := Memory.read_writeBlock_inside font [] fontBase k hk List.Pairwise.nil
  rw [bootMemory, Memory.read_writeBlock_outside rom _ programBase k (.inl hlow)]
  rwa [fontBase, Nat.zero_add] at hinside

theorem read_bootMemory_elsewhere (font rom : List Byte) (a : Nat) (hfont : font.length ≤ a)
    (hrom : a < 0x200 ∨ 0x200 + rom.length ≤ a) : (bootMemory font rom).read a = 0x00#8 := by
  rw [bootMemory, Memory.read_writeBlock_outside rom _ programBase a hrom,
    Memory.read_writeBlock_outside _ _ _ _ (.inr (by rwa [fontBase, Nat.zero_add])), Memory.read_nil]

theorem wf_bootMemory {c : Config} {font rom : List Byte} (hc : c.WellFormed) (hfont : FontWellFormed font)
    (hrom : RomFits c rom) : Memory.wf c.memSize (bootMemory font rom) := by
  obtain ⟨hmin, -⟩ := hc
  refine Memory.wf_writeBlock _ _ _ _ (Memory.wf_writeBlock _ _ _ _ (Memory.wf_nil _) ?_) hrom
  rw [hfont, fontBase]
  omega

/-- Settles O19: `bootMemory` read in its three regions, and the invariant of reset with that memory in place. -/
theorem bootLoadsFontAndRom : Obligations.BootLoadsFontAndRom := by
  intro c font rom hc hfont hrom
  have hlen : font.length = 80 := hfont
  refine ⟨_, boot_eq_some hfont hrom, fun k hk => ?_, fun k hk => ?_, fun a ha hout => ?_, rfl, ?_⟩
  · rw [read_bootMemory_font font rom k (by omega) (by omega), List.getElem?_eq_getElem]
  · rw [read_bootMemory_rom font rom k hk, List.getElem?_eq_getElem]
  · exact read_bootMemory_elsewhere font rom a (by omega) hout
  · exact ⟨hc, wf_bootMemory hc hfont hrom, Memory.wf_nil 256⟩

end Sys2Proof.Machine
end

/-! Proofs for 40_control_flow.md: call, return and the jump with an offset. -/

section
namespace Sys2Proof.Machine

theorem exec_call_of_lt {s : State} (nnn : Addr12) (h : s.sp.val < 16) : exec (.call nnn) s = .next { s with
    pc := zextAddr nnn
    sp := ⟨s.sp.val + 1, Nat.succ_lt_succ h⟩
    stack := s.stack.set s.sp.val s.pc h } := by
  rw [exec, execCall, s.push_of_lt _ h]
  rfl

theorem exec_call_of_full {s : State} (nnn : Addr12) (h : s.sp.val = 16) :
    exec (.call nnn) s = .next { s with result := .err .stackOverflow } := by
  rw [exec, execCall, s.push_of_full _ h]
  rfl

theorem exec_ret_of_pos {s : State} (h : 0 < s.sp.val) : exec .ret s = .next { s with
    pc := s.stack[s.sp.val - 1]'(by omega)
    sp := ⟨s.sp.val - 1, by omega⟩ } := by
  rw [exec, execRet, s.pop_of_pos h]
  rfl

theorem exec_ret_of_zero {s : State} (h : s.sp.val = 0) :
    exec .ret s = .next { s with result := .err .stackUnderflow } := by
  rw [exec, execRet, s.pop_of_zero h]
  rfl

/-- Settles O29: a call below depth 16 sets one slot of the stack, and at depth 16 raises. -/
theorem callPushesTheNextAddressOrOverflows : Obligations.CallPushesTheNextAddressOrOverflows := by
  intro s nnn
  refine ⟨fun hlt => ⟨_, exec_call_of_lt nnn hlt, rfl, ?_, fun k hk => ?_, zextAddr_toNat nnn, rfl⟩,
    exec_call_of_full nnn⟩
  · exact Vector.getElem?_set_self hlt
  · exact Vector.getElem?_set_ne hlt hk.symm

/-- Settles O30: a return above depth 0 reads the top slot, and at depth 0 raises. -/
theorem returnPopsOrUnderflows : Obligations.ReturnPopsOrUnderflows := by
  intro s
  refine ⟨fun hpos => ⟨_, exec_ret_of_pos hpos, ?_, Nat.sub_add_cancel hpos, rfl⟩, exec_ret_of_zero⟩
  exact Vector.getElem?_eq_getElem _

/-- Settles O31: the slot the return reads is the one the call set. -/
theorem returnUndoesCall : Obligations.ReturnUndoesCall := by
  intro s nnn hlt
  refine ⟨_, _, exec_call_of_lt nnn hlt, exec_ret_of_pos (Nat.succ_pos _), ?_, rfl, ?_⟩
  · exact Vector.getElem_set_self hlt
  · simp

theorem exec_jpV0 (nnn : Addr12) (s : State) :
    exec (.jpV0 nnn) s = .next (s.jump (zextByte (s.reg 0x0#4) + zextAddr nnn)) := rfl

/-- Settles O32: a byte and a 12-bit address sum to less than 2^16, so the 16-bit sum does not wrap. -/
theorem jumpWithOffsetAddsV0 : Obligations.JumpWithOffsetAddsV0 := by
  intro s nnn
  refine ⟨_, exec_jpV0 nnn s, ?_, rfl⟩
  have := (s.reg 0x0#4).isLt
  have := nnn.isLt
  rw [State.jump_pc, BitVec.toNat_add, zextByte_toNat, zextAddr_toNat]
  omega

end Sys2Proof.Machine
end

/-! Proofs for 41_skips.md: the key skips. -/

section
namespace Sys2Proof.Machine

theorem pressed_iff (key : KeyMask) (v : Byte) :
    pressed key v = true ↔ v.toNat < 16 ∧ key.getLsbD v.toNat = true := by
  rw [pressed, Bool.and_eq_true, decide_eq_true_iff]

/-- Settles O35: both are `State.skipIf` on the key-pressed predicate of R145. -/
theorem keySkipsTestOneKey : Obligations.KeySkipsTestOneKey := by
  intro s x
  simp only [exec_skp, exec_sknp, State.skipIf_eq, ← pressed_iff, Bool.not_eq_true', ← Bool.not_eq_true, ite_not,
    and_self]

/-- Settles O36: the two test the same predicate and skip on opposite answers. -/
theorem exactlyOneKeySkipFires : Obligations.ExactlyOneKeySkipFires := by
  intro s x
  refine ⟨_, _, exec_skp x s, exec_sknp x s, ?_⟩
  cases pressed s.key (s.reg x) with
  | true => exact .inl ⟨rfl, rfl⟩
  | false => exact .inr ⟨rfl, rfl⟩

end Sys2Proof.Machine
end

/-! Proofs for 42_alu.md: the instructions that write a flag, and Cxkk. -/

section
namespace Sys2Proof.Machine

/-! The write of a flag and a result, field by field (R151). -/

theorem State.reg_setFlagThenReg_result (s : State) (f : Byte) (x : Reg) (b : Byte) :
    (s.setFlagThenReg f x b).reg x = b := by
  rw [State.reg_setFlagThenReg, if_pos rfl]

theorem State.reg_setFlagThenReg_flag (s : State) (f : Byte) {x : Reg} (b : Byte) (hx : x ≠ 0xF#4) :
    (s.setFlagThenReg f x b).reg 0xF#4 = f := by
  rw [State.reg_setFlagThenReg, if_neg hx.symm, if_pos rfl]

theorem State.reg_setFlagThenReg_other (s : State) (f : Byte) {x k : Reg} (b : Byte) (hx : k ≠ x) (hf : k ≠ 0xF#4) :
    (s.setFlagThenReg f x b).reg k = s.reg k := by
  rw [State.reg_setFlagThenReg, if_neg hx, if_neg hf]

/-! The values of the flags (R150, R158 to R162). -/

theorem flagByte_decide (p : Prop) [Decidable p] : flagByte (decide p) = if p then 0x01#8 else 0x00#8 := by
  simp only [flagByte, decide_eq_true_iff]

theorem flagByte_toNat (c : Bool) : (flagByte c).toNat = c.toNat := by
  cases c <;> rfl

theorem shiftRightFlag_toNat (a : Byte) : (shiftRightFlag a).toNat = a.toNat % 2 := by
  rw [shiftRightFlag, flagByte_toNat, BitVec.getLsbD, Nat.toNat_testBit, Nat.pow_zero, Nat.div_one]

theorem shiftLeftFlag_toNat (a : Byte) : (shiftLeftFlag a).toNat = a.toNat / 128 := by
  have := a.isLt
  rw [shiftLeftFlag, flagByte_toNat, BitVec.getLsbD, Nat.toNat_testBit]
  omega

/-! The effects, each one write of a flag and a result. -/

theorem exec_addReg (x y : Reg) (s : State) : exec (.addReg x y) s =
    .next (s.setFlagThenReg (carryFlag (s.reg x) (s.reg y)) x (s.reg x + s.reg y)) := rfl

theorem exec_subReg (x y : Reg) (s : State) : exec (.subReg x y) s =
    .next (s.setFlagThenReg (greaterFlag (s.reg x) (s.reg y)) x (s.reg x - s.reg y)) := rfl

theorem exec_subnReg (x y : Reg) (s : State) : exec (.subnReg x y) s =
    .next (s.setFlagThenReg (greaterFlag (s.reg y) (s.reg x)) x (s.reg y - s.reg x)) := rfl

theorem exec_shr (x y : Reg) (s : State) : exec (.shr x y) s =
    .next (s.setFlagThenReg (shiftRightFlag (s.reg x)) x (s.reg x >>> 1)) := rfl

theorem exec_shl (x y : Reg) (s : State) : exec (.shl x y) s =
    .next (s.setFlagThenReg (shiftLeftFlag (s.reg x)) x (s.reg x <<< 1)) := rfl

/-- The state a flag-writing instruction leaves has the result, the flag unless x = F, and all else as before. -/
theorem setFlagThenReg_spec (s : State) (f : Byte) (x : Reg) (b : Byte) {o : Outcome}
    (h : o = .next (s.setFlagThenReg f x b)) :
    ∃ t, o = .next t ∧ t.reg x = b ∧ (x ≠ 0xF#4 → t.reg 0xF#4 = f) ∧
      (∀ k, k ≠ x → k ≠ 0xF#4 → t.reg k = s.reg k) ∧ t = { s with v := t.v } :=
  ⟨_, h, s.reg_setFlagThenReg_result f x b, s.reg_setFlagThenReg_flag f b,
    fun _ => s.reg_setFlagThenReg_other f b, s.setFlagThenReg_eq f x b⟩

/-- Settles O39: one write of the carry and the byte sum. -/
theorem addSetsCarry : Obligations.AddSetsCarry := by
  intro s x y
  obtain ⟨t, ht, hres, hflag, hother, hframe⟩ := setFlagThenReg_spec _ _ _ _ (exec_addReg x y s)
  refine ⟨t, ht, ?_, fun hx => ?_, hother, hframe⟩
  · rw [hres, BitVec.toNat_add]
  · rw [hflag hx, carryFlag, flagByte_decide]

theorem byte_sub_toNat (a b : Byte) : (a - b).toNat = (a.toNat + 256 - b.toNat) % 256 := by
  have := b.isLt
  rw [BitVec.toNat_sub]
  omega

/-- Settles O40: 8xy7 is 8xy5 with the operands exchanged. -/
theorem subtractSetsStrictlyGreater : Obligations.SubtractSetsStrictlyGreater := by
  intro s x y
  constructor
  · obtain ⟨t, ht, hres, hflag, hother, hframe⟩ := setFlagThenReg_spec _ _ _ _ (exec_subReg x y s)
    refine ⟨t, ht, ?_, fun hx => ?_, hother, hframe⟩
    · rw [hres, byte_sub_toNat]
    · rw [hflag hx, greaterFlag, flagByte_decide]
  · obtain ⟨t, ht, hres, hflag, hother, hframe⟩ := setFlagThenReg_spec _ _ _ _ (exec_subnReg x y s)
    refine ⟨t, ht, ?_, fun hx => ?_, hother, hframe⟩
    · rw [hres, byte_sub_toNat]
    · rw [hflag hx, greaterFlag, flagByte_decide]

/-- Settles O41: each is one write of the bit shifted out and the shifted byte, and reads no y. -/
theorem shiftsMoveOneBitIntoVf : Obligations.ShiftsMoveOneBitIntoVf := by
  intro s x y
  constructor
  · obtain ⟨t, ht, hres, hflag, hother, hframe⟩ := setFlagThenReg_spec _ _ _ _ (exec_shr x y s)
    refine ⟨t, ht, ?_, fun hx => ?_, hother, hframe⟩
    · rw [hres, BitVec.toNat_ushiftRight, Nat.shiftRight_one]
    · rw [hflag hx, shiftRightFlag_toNat]
  · obtain ⟨t, ht, hres, hflag, hother, hframe⟩ := setFlagThenReg_spec _ _ _ _ (exec_shl x y s)
    refine ⟨t, ht, ?_, fun hx => ?_, hother, hframe⟩
    · rw [hres, BitVec.toNat_shiftLeft, Nat.shiftLeft_eq]
    · rw [hflag hx, shiftLeftFlag_toNat]

/-- Settles O42: one write of V[x], of RAND with the bits of kk. -/
theorem randomByteIsMasked : Obligations.RandomByteIsMasked := by
  intro s x kk
  have hreg : (s.setReg x (s.rand &&& kk)).reg x = s.rand &&& kk := s.reg_setReg_same x _
  refine ⟨_, exec_rnd x kk s, fun j => ?_, fun hkk => ?_, fun hkk => ?_, s.setReg_frame x _⟩
  · rw [hreg, BitVec.getLsbD_and]
  · rw [hreg, hkk]
    exact BitVec.and_zero
  · rw [hreg, hkk]
    exact BitVec.and_allOnes (w := 8)

end Sys2Proof.Machine
end

/-! Proofs for 43_index_memory.md and 20_memory.md: Fx1E and the memory transfers. -/

section
namespace Sys2Proof.Machine

theorem exec_addIVx (x : Reg) (s : State) :
    exec (.addIVx x) s = .next { s with i := s.i + zextByte (s.reg x) } := rfl

/-- Settles O44: the 16-bit sum of I and the zero-extended V[x]. -/
theorem addToIndexWraps : Obligations.AddToIndexWraps := by
  intro s x
  refine ⟨_, exec_addIVx x s, ?_, rfl⟩
  rw [BitVec.toNat_add, zextByte_toNat]

/-! The bounds check of an access from I on (R73, R77, D5, D6). -/

theorem State.ea_eq (s : State) (k : Nat) : s.ea k = s.ea 0 + k := rfl

theorem checked_of_last_lt {s : State} {last : Nat} (t : State) (h : s.ea last < s.config.memSize) :
    checked s (s.ea 0) (last + 1) t = .next t :=
  checked_of_inBounds s t _ _ (.inr h)

/-- The lowest failing address is the one the statements name: out of bounds itself, and every earlier one in bounds. -/
theorem checked_of_first_out {s : State} {n k : Nat} (t : State) (hk : k < n) (hout : s.config.memSize ≤ s.ea k)
    (hmin : ∀ j, j < k → s.ea j < s.config.memSize) :
    checked s (s.ea 0) n t = .next { s with result := .err (.outOfBounds (s.ea k)) } := by
  have hlow : max (s.ea 0) s.config.memSize = s.ea k := by
    cases k with
    | zero => exact Nat.max_eq_left hout
    | succ k =>
      have hprev := hmin k (Nat.lt_succ_self k)
      rw [s.ea_eq k] at hprev
      rw [s.ea_eq (k + 1)] at hout ⊢
      omega
  rw [s.ea_eq k] at hout
  rw [checked_of_outOfBounds s t _ _ (by omega), hlow, raise_eq]

theorem exec_ldBVx (x : Reg) (s : State) : exec (.ldBVx x) s =
    checked s (s.ea 0) (2 + 1) { s with mem := s.mem.writeBlock (s.ea 0) (decimalDigits (s.reg x)) } := rfl

theorem exec_ldIVx (x : Reg) (s : State) : exec (.ldIVx x) s =
    checked s (s.ea 0) (x.toNat + 1) { s with mem := s.mem.writeBlock (s.ea 0) (s.regsUpTo x) } := rfl

theorem exec_ldVxI (x : Reg) (s : State) : exec (.ldVxI x) s =
    checked s (s.ea 0) (x.toNat + 1) (s.loadRegs (x.toNat + 1)) := rfl

/-! What the two stores leave in memory (R183, R184). -/

theorem read_storedDigit {m : Memory} (hm : m.Pairwise (fun c d => c.1 < d.1)) (base : Nat) (v : Byte) (k : Nat)
    (hk : k < 3) : (m.writeBlock base (decimalDigits v)).read (base + k) = (decimalDigits v)[k] :=
  Memory.read_writeBlock_inside (decimalDigits v) m base k hk hm

theorem read_storedReg {s : State} (hm : s.mem.Pairwise (fun c d => c.1 < d.1)) (x k : Reg) (hk : k.toNat ≤ x.toNat) :
    (s.mem.writeBlock (s.ea 0) (s.regsUpTo x)).read (s.ea k.toNat) = s.reg k := by
  have hlen : k.toNat < (s.regsUpTo x).length := by
    rw [length_regsUpTo]
    omega
  rw [s.ea_eq k.toNat, Memory.read_writeBlock_inside _ _ _ _ hlen hm, getElem_regsUpTo, BitVec.ofNat_toNat,
    BitVec.setWidth_eq]

/-- Settles O45: a block write of the three digits at I, checked up to I + 2. -/
theorem bcdStoresThreeDigitsOrRaises : Obligations.BcdStoresThreeDigitsOrRaises := by
  intro s x
  refine ⟨fun hwf hin => ?_, fun k hk hout hmin => ?_⟩
  · obtain ⟨hm, -⟩ := hwf
    have := (s.reg x).isLt
    refine ⟨_, (exec_ldBVx x s).trans (checked_of_last_lt _ hin), ?_, ?_, ?_, fun a ha => ?_, rfl⟩
    · rw [s.ea_eq 0, read_storedDigit hm _ _ 0 (by decide)]
      exact Nat.mod_eq_of_lt (by omega)
    · rw [s.ea_eq 1, read_storedDigit hm _ _ 1 (by decide)]
      exact Nat.mod_eq_of_lt (by omega)
    · rw [s.ea_eq 2, read_storedDigit hm _ _ 2 (by decide)]
      exact Nat.mod_eq_of_lt (by omega)
    · exact Memory.read_writeBlock_outside _ _ _ _ ha
  · exact (exec_ldBVx x s).trans (checked_of_first_out _ (Nat.lt_succ_of_le hk) hout hmin)

/-- Settles O46: a block write of V[0]..V[x] at I, checked up to I + x. -/
theorem registersAreStoredOrItRaises : Obligations.RegistersAreStoredOrItRaises := by
  intro s x
  refine ⟨fun hwf hin => ?_, fun k hk hout hmin => ?_⟩
  · obtain ⟨hm, -⟩ := hwf
    refine ⟨_, (exec_ldIVx x s).trans (checked_of_last_lt _ hin), read_storedReg hm x, fun a ha => ?_, rfl⟩
    refine Memory.read_writeBlock_outside _ _ _ _ ?_
    rwa [length_regsUpTo]
  · exact (exec_ldIVx x s).trans (checked_of_first_out _ (Nat.lt_succ_of_le hk) hout hmin)

theorem reg_loadRegs_of_le (s : State) {x k : Reg} (hk : k.toNat ≤ x.toNat) :
    (s.loadRegs (x.toNat + 1)).reg k = s.mem.read (s.ea k.toNat) := by
  rw [s.reg_loadRegs _ (by omega), if_pos (Nat.lt_succ_of_le hk)]

theorem reg_loadRegs_of_gt (s : State) {x k : Reg} (hk : x.toNat < k.toNat) :
    (s.loadRegs (x.toNat + 1)).reg k = s.reg k := by
  rw [s.reg_loadRegs _ (by omega), if_neg (by omega)]

/-- Settles O47: the block load of R185, checked up to I + x. -/
theorem registersAreLoadedOrItRaises : Obligations.RegistersAreLoadedOrItRaises := by
  intro s x
  refine ⟨fun hin => ?_, fun k hk hout hmin => ?_⟩
  · exact ⟨_, (exec_ldVxI x s).trans (checked_of_last_lt _ hin), fun k => reg_loadRegs_of_le s,
      fun k => reg_loadRegs_of_gt s, s.loadRegs_eq _⟩
  · exact (exec_ldVxI x s).trans (checked_of_first_out _ (Nat.lt_succ_of_le hk) hout hmin)

/-- Settles O48: the store of O46 left V[k] at I + k, which is what the load of O47 reads. -/
theorem loadRestoresStoredRegisters : Obligations.LoadRestoresStoredRegisters := by
  intro s x v' hwf hin
  obtain ⟨hstores, -⟩ := registersAreStoredOrItRaises s x
  obtain ⟨t, ht, hstored, -, hframe⟩ := hstores hwf hin
  have hi : t.i = s.i := by rw [hframe]
  have hcfg : t.config = s.config := by rw [hframe]
  have hea (k : Nat) : State.ea { t with v := v' } k = s.ea k := congrArg (fun i : Word => i.toNat + k) hi
  obtain ⟨hloads, -⟩ := registersAreLoadedOrItRaises { t with v := v' } x
  obtain ⟨u, hu, hloaded, -, -⟩ := hloads (by rw [hea, hcfg]; exact hin)
  refine ⟨t, u, ht, hu, fun k hk => ?_⟩
  rw [hloaded k hk, hea, hstored k hk]

/-- Settles O49: the fetch reads I + k and I + k + 1, where the store of O46 left V[k] and V[k+1]. -/
theorem storedBytesAreFetched : Obligations.StoredBytesAreFetched := by
  intro s t x k p hwf hin hexec hk hp
  have hsucc : (k + 1#4).toNat = k.toNat + 1 := by
    have := x.isLt
    rw [BitVec.toNat_add, BitVec.toNat_ofNat]
    omega
  obtain ⟨hstores, -⟩ := registersAreStoredOrItRaises s x
  obtain ⟨t', ht, hstored, -, hframe⟩ := hstores hwf hin
  obtain rfl : t' = t := by simpa using ht.symm.trans hexec
  have hcfg : t'.config = s.config := by rw [hframe]
  rw [fetch_eq_ok_iff]
  constructor
  · show p.toNat + 2 ≤ t'.config.memSize
    rw [s.ea_eq x.toNat] at hin
    rw [hcfg, hp, s.ea_eq k.toNat]
    omega
  · have hlow := hstored k (by omega)
    have hhigh := hstored (k + 1#4) (by omega)
    rw [hsucc, s.ea_eq, ← Nat.add_assoc, ← s.ea_eq, ← hp] at hhigh
    rw [← hp] at hlow
    rw [← hlow, ← hhigh]

end Sys2Proof.Machine
end

/-! Proofs for 44_display.md: Dxyn. -/

section
namespace Sys2Proof.Machine

theorem exec_drw (x y : Reg) (n : Nibble) (s : State) :
    exec (.drw x y n) s = checked s (s.ea 0) n.toNat (s.drawn x y n.toNat) := rfl

/-- R201: the pixels of the sprite are those `State.spriteOn` finds a 1 bit for. A pixel of the screen has one column
and one row of the sprite that can wrap onto it, because there are at most 32 rows. -/
theorem mem_spritePixels_iff_spriteOn (s : State) (x y : Reg) {n px py : Nat} (hn : n ≤ 32) (hx : px < 64) (hy : py < 32) :
    (px, py) ∈ spritePixels (s.reg x).toNat (s.reg y).toNat (s.mem.readBlock (s.ea 0) n) ↔
      s.spriteOn x y n px py = true := by
  simp only [mem_spritePixels, Memory.getElem_readBlock, Memory.length_readBlock, State.spriteOn, Bool.and_eq_true,
    decide_eq_true_eq, Prod.mk.injEq]
  constructor
  · rintro ⟨r, c, hr, hc, hbit, hpx, hpy⟩
    have hcol : (px + 64 - (s.reg x).toNat % 64) % 64 = c := by omega
    have hrow : (py + 32 - (s.reg y).toNat % 32) % 32 = r := by omega
    rw [hcol, hrow]
    exact ⟨⟨hc, hr⟩, hbit⟩
  · rintro ⟨⟨hc, hr⟩, hbit⟩
    exact ⟨_, _, hr, hc, hbit, by omega, by omega⟩

theorem drawSprite_eq (s : State) (x y : Reg) (n : Nat) : s.drawSprite x y n =
    (spritePixels (s.reg x).toNat (s.reg y).toNat (s.mem.readBlock (s.ea 0) n)).foldl
      (fun cv q => cv.plot q.1 q.2) { vid := s.vid, hit := false } :=
  Canvas.plotSprite_eq _ _ _ _

section
variable {s : State} (x y : Reg) {n : Nat} (hn : n ≤ 32) (hvid : Memory.wf 256 s.vid)
include hn hvid

/-- The draw is the plot of a list of screen pixels without repetition. -/
theorem drawSprite_spec :
    (∀ px py, px < 64 → (s.drawSprite x y n).vid.pixel px py = (s.vid.pixel px py ^^
      decide ((px, py) ∈ spritePixels (s.reg x).toNat (s.reg y).toNat (s.mem.readBlock (s.ea 0) n)))) ∧
    ((s.drawSprite x y n).hit = true ↔
      false = true ∨ ∃ q ∈ spritePixels (s.reg x).toNat (s.reg y).toNat (s.mem.readBlock (s.ea 0) n),
        s.vid.pixel q.1 q.2 = true) := by
  rw [drawSprite_eq]
  exact foldl_plot _ _ (nodup_spritePixels _ _ _ (by rwa [Memory.length_readBlock])) (spritePixels_in_screen _ _ _)
    hvid.left

theorem pixel_drawSprite {px py : Nat} (hx : px < 64) (hy : py < 32) :
    (s.drawSprite x y n).vid.pixel px py = (s.vid.pixel px py ^^ s.spriteOn x y n px py) := by
  obtain ⟨hpixel, -⟩ := drawSprite_spec x y hn hvid
  simp only [hpixel px py hx, mem_spritePixels_iff_spriteOn s x y hn hx hy, Bool.decide_eq_true]

theorem drawSprite_hit_iff : (s.drawSprite x y n).hit = true ↔
    ∃ px py, px < 64 ∧ py < 32 ∧ s.spriteOn x y n px py = true ∧ s.vid.pixel px py = true := by
  obtain ⟨-, hhit⟩ := drawSprite_spec x y hn hvid
  rw [hhit]
  constructor
  · rintro (hfalse | ⟨⟨px, py⟩, hmem, hpixel⟩)
    · cases hfalse
    · obtain ⟨hx, hy⟩ := spritePixels_in_screen _ _ _ _ hmem
      exact ⟨px, py, hx, hy, (mem_spritePixels_iff_spriteOn s x y hn hx hy).1 hmem, hpixel⟩
  · rintro ⟨px, py, hx, hy, hon, hpixel⟩
    exact .inr ⟨(px, py), (mem_spritePixels_iff_spriteOn s x y hn hx hy).2 hon, hpixel⟩

theorem reg_drawn_of_hit (h : ∃ px py, px < 64 ∧ py < 32 ∧ s.spriteOn x y n px py = true ∧ s.vid.pixel px py = true) :
    (s.drawn x y n).reg 0xF#4 = 0x01#8 := by
  rw [State.drawn, State.reg_setReg_same, (drawSprite_hit_iff x y hn hvid).2 h]
  rfl

theorem reg_drawn_of_no_hit
    (h : ∀ px py, px < 64 → py < 32 → s.spriteOn x y n px py = true → s.vid.pixel px py = false) :
    (s.drawn x y n).reg 0xF#4 = 0x00#8 := by
  have hhit : (s.drawSprite x y n).hit = false := by
    refine Bool.eq_false_iff.2 fun hhit => ?_
    obtain ⟨px, py, hx, hy, hon, hpixel⟩ := (drawSprite_hit_iff x y hn hvid).1 hhit
    rw [h px py hx hy hon] at hpixel
    cases hpixel
  rw [State.drawn, State.reg_setReg_same, hhit]
  rfl

end

theorem exec_drw_of_inBounds {s : State} (x y : Reg) {n : Nibble}
    (hin : n = 0x0#4 ∨ s.i.toNat + n.toNat ≤ s.config.memSize) : exec (.drw x y n) s = .next (s.drawn x y n.toNat) := by
  refine (exec_drw x y n s).trans (checked_of_inBounds s _ _ _ (hin.imp_left fun hn => ?_))
  rw [hn]
  rfl

theorem nibble_toNat_le (n : Nibble) : n.toNat ≤ 32 := by omega

/-- Settles O51: with the check passed the state is `State.drawn`, whose screen and VF are those of the plotted pixels. -/
theorem drawXorsTheWrappedSprite : Obligations.DrawXorsTheWrappedSprite := by
  intro s x y n hvid hin
  have hn := nibble_toNat_le n
  exact ⟨_, exec_drw_of_inBounds x y hin, fun px py => pixel_drawSprite x y hn hvid, reg_drawn_of_hit x y hn hvid,
    reg_drawn_of_no_hit x y hn hvid, fun k => State.reg_setReg_ne _ _ k _, rfl⟩

/-- Settles O52: the check comes before the draw, and reports the lowest failing address. -/
theorem drawOutOfBoundsDrawsNothing : Obligations.DrawOutOfBoundsDrawsNothing := by
  intro s x y n k hk hout hmin
  exact (exec_drw x y n s).trans (checked_of_first_out _ hk hout hmin)

/-- The screen a draw leaves is canonical. -/
theorem wf_vid_drawn {s : State} (x y : Reg) (n : Nat) (hvid : Memory.wf 256 s.vid) :
    Memory.wf 256 (s.drawn x y n).vid :=
  Canvas.plotSprite_wf _ _ _ _ hvid

/-- With x and y not F, the VF that a draw writes does not move the sprite. -/
theorem spriteOn_drawn (s : State) {x y : Reg} (n m px py : Nat) (hx : x ≠ 0xF#4) (hy : y ≠ 0xF#4) :
    (s.drawn x y n).spriteOn x y m px py = s.spriteOn x y m px py := by
  have hreg {k : Reg} (hk : k ≠ 0xF#4) : (s.drawn x y n).reg k = s.reg k := State.reg_setReg_ne _ _ k _ hk
  simp only [State.spriteOn, hreg hx, hreg hy]
  rfl

/-- Settles O53: the second draw turns over the pixels the first one did, so the two cancel; it hits where a 1 bit fell on
a pixel that the first draw turned on. -/
theorem drawingTwiceRestoresTheScreen : Obligations.DrawingTwiceRestoresTheScreen := by
  intro s x y n hvid hx hy hin
  have hn := nibble_toNat_le n
  have hvid' := wf_vid_drawn x y n.toNat hvid
  have hon (px py : Nat) := spriteOn_drawn s n.toNat n.toNat px py hx hy
  have hpixel {px py : Nat} (hpx : px < 64) (hpy : py < 32) :
      (s.drawn x y n.toNat).vid.pixel px py = (s.vid.pixel px py ^^ s.spriteOn x y n.toNat px py) :=
    pixel_drawSprite x y hn hvid hpx hpy
  refine ⟨_, _, exec_drw_of_inBounds x y hin, exec_drw_of_inBounds x y hin, fun px py hpx hpy => ?_, fun h => ?_,
    fun h => ?_⟩
  · have htwice := pixel_drawSprite x y hn hvid' hpx hpy
    rw [hon, hpixel hpx hpy, Bool.xor_assoc, Bool.xor_self, Bool.xor_false] at htwice
    exact htwice
  · obtain ⟨px, py, hpx, hpy, hbit, hoff⟩ := h
    refine reg_drawn_of_hit x y hn hvid' ⟨px, py, hpx, hpy, (hon px py).trans hbit, ?_⟩
    rw [hpixel hpx hpy, hoff, hbit]
    rfl
  · refine reg_drawn_of_no_hit x y hn hvid' fun px py hpx hpy hbit => ?_
    rw [hon] at hbit
    rw [hpixel hpx hpy, h px py hpx hpy hbit, hbit]
    rfl

end Sys2Proof.Machine
end

/-! Proofs for 45_timers_keys.md and 60_exceptions.md section 5: the delay timer read back, and Fx0A. -/

section
namespace Sys2Proof.Machine

/-- Settles O55: by O54 the first step leaves V[x] in DT and the second reads DT after its tick. -/
theorem delayTimerReadBackIsOneLess : Obligations.DelayTimerReadBackIsOneLess := by
  intro s t u x y w w' hf hd hstep hf' hd' hstep'
  obtain ⟨-, -, -, -, -, hset, -⟩ := timerAccessComesAfterTheTick s x
  obtain ⟨-, -, -, -, hread, -, -⟩ := timerAccessComesAfterTheTick t y
  obtain ⟨t', ht, hdt⟩ := hset w hf hd
  obtain ⟨u', hu, hreg, -⟩ := hread w' hf' hd'
  obtain rfl : t' = t := by simpa using ht.symm.trans hstep
  obtain rfl : u' = u := by simpa using hu.symm.trans hstep'
  rw [hreg, hdt]

/-- Settles O56: with a key down one write of V[x], of the lowest key; with none `State.blockOnKey`. -/
theorem waitForKeyTakesTheLowestKeyOrBlocks : Obligations.WaitForKeyTakesTheLowestKeyOrBlocks := by
  intro s x
  refine ⟨fun hkey => ?_, fun hkey => ?_⟩
  · obtain ⟨k, hk16, hk, hdown, hlowest⟩ := lowestKey_spec s.key hkey
    refine ⟨_, k, exec_ldVxK_of_key x hkey, ?_, hk16, hdown, hlowest, s.setReg_frame x _⟩
    rw [State.reg_setReg_same, hk]
  · rw [exec_ldVxK_of_no_key x hkey, s.blockOnKey_eq]

/-- The whole step of a blocked Fx0A: PC goes forward by 2 and back. -/
theorem step_of_blocked {s : State} {x : Reg} {w : Word} (hf : fetch s = .ok w) (hd : decode w = .instr (.ldVxK x))
    (hkey : s.key = 0x0000#16) : step s = .next { s with
      dt := if s.config.waitTimerTick = true then BitVec.ofNat 8 (s.dt.toNat - 1) else s.dt
      st := if s.config.waitTimerTick = true then BitVec.ofNat 8 (s.st.toNat - 1) else s.st
      result := .ok
      dtStart := s.dt
      stStart := s.st
      inputs := s.inputs.tail
      stepNo := s.stepNo + 1 } := by
  have hpc : s.pc + 2#16 - 2#16 = s.pc := BitVec.add_sub_cancel s.pc 2#16
  rw [step_of_exec hf hd (exec_ldVxK_of_no_key x (s := s.enter) hkey), State.blockOnKey_eq, s.enter_eq]
  simp only [State.finish, hpc]

/-- A fetch reads only PC, main memory and MEM_SIZE (R114). -/
theorem fetch_congr {s t : State} (hpc : t.pc = s.pc) (hmem : t.mem = s.mem) (hcfg : t.config = s.config) :
    fetch t = fetch s := by
  simp only [fetch, State.firstOutOfBounds, hpc, hmem, hcfg]

/-- Settles O57: the blocked step keeps PC, main memory and MEM_SIZE, which are all a fetch reads. -/
theorem aBlockedStepRunsAgain : Obligations.ABlockedStepRunsAgain := by
  intro s x w hf hd hkey
  exact ⟨_, ⟨step_of_blocked hf hd hkey, rfl⟩, (fetch_congr rfl rfl rfl).trans hf, rfl⟩

end Sys2Proof.Machine
end
